-- ==== Sys2Proof/Word.lean ====
section
/-! DEFINITION. The two word types of the CA8 core. -/

namespace Sys2Proof

/-- An 8-bit unsigned value: a register, a memory cell, an opcode or an operand byte (rules R20, R50, R70). -/
abbrev Byte := BitVec 8

/-- The 9-bit program counter (rule R28). -/
abbrev PcWord := BitVec 9

end Sys2Proof
end

