-- ==== Sys2Proof/Machine/Flags.lean ====
section
/-! DEFINITION. The flags register's values and the one computation that makes them (rules R26 and R144). -/

namespace Sys2Proof.Machine

/-- `E`, bit 0 of `FL` (rule R26). -/
abbrev flagE : Byte := 0x01

/-- `G`, bit 1 of `FL` (rule R26). -/
abbrev flagG : Byte := 0x02

/-- `L`, bit 2 of `FL` (rule R26). -/
abbrev flagL : Byte := 0x04

/-- The whole of `FL` after CMP of `x` and `y` as unsigned bytes, equality tested first (rule R144). -/
def compareFlags (x y : Byte) : Byte :=
  if x = y then flagE else if x.toNat > y.toNat then flagG else flagL

end Sys2Proof.Machine
end

