-- ==== Sys2Proof/Config.lean ====
section
/-! DEFINITION. The fixed values and the named parameters of the CA8 core (rule R6). -/

namespace Sys2Proof

/-- `UNKNOWN_OPCODE_POLICY` of rule R6: what an opcode with no row in the table does (rule R104). -/
inductive UnknownOpcodePolicy where
  | fault
  | skip
deriving DecidableEq, Repr

/-- `REG_ALIAS` of rule R6: whether `SP` and `FL` are cells of their own (rule R23) or are
`R[7]` and `R[6]` (rule R24). -/
inductive RegAlias where
  | decoupled
  | aliased
deriving DecidableEq, Repr

/-- `RESET_FILL` of rule R6: what reset leaves in `R[0]`..`R[5]` and in memory (rule R32). -/
inductive ResetFill where
  | zero
  | arbitrary
deriving DecidableEq, Repr

/-- The four named parameters of rule R6. They are fixed for a run (rule R35). -/
structure Config where
  unknownOpcodePolicy : UnknownOpcodePolicy
  regAlias : RegAlias
  resetFill : ResetFill
  /-- `MAX_STEPS`, the host's optional ceiling (rule R106). -/
  maxSteps : Option Nat
deriving DecidableEq, Repr

namespace Config

/-- The defaults of rule R6. -/
def default : Config :=
  { unknownOpcodePolicy := .fault, regAlias := .decoupled, resetFill := .zero, maxSteps := none }

/-- `NREG` of rule R6. -/
abbrev nReg : Nat := 8

/-- `MEMSIZE` of rule R6. -/
abbrev memSize : Nat := 256

/-- `SP_RESET` of rule R6. -/
abbrev spReset : Byte := 0xF4

/-- `FL_RESET` of rule R6. -/
abbrev flReset : Byte := 0x00

/-- `PC_RESET` of rule R6. -/
abbrev pcReset : PcWord := 0

/-- What a memory cell that is not listed reads as: the reset contents under `RESET_FILL = ZERO`
(rule R32, decision D4; log entry 3). -/
abbrev unlistedByte : Byte := 0x00

end Config
end Sys2Proof
end

