-- ==== Sys2Proof/Machine/State.lean ====
section
/-! DEFINITION. The state of the CA8 core as plain data (10_state.md), the reasons a step stops, and reset. -/

namespace Sys2Proof.Machine

/-- The 256-cell memory of rule R50, as the cells that do not hold `Config.unlistedByte`:
addresses strictly rising (`Memory.wf` in Machine/Ops.lean). -/
abbrev Memory := List Host.Cell

/-- Where `SP` and `FL` are kept; this is `REG_ALIAS` (rules R23 and R24) as storage, so that a cell
with two names is stored once. -/
inductive SpecialCells where
  /-- `DECOUPLED`: cells of their own (rule R23). -/
  | decoupled (sp fl : Byte)
  /-- `ALIASED`: `SP` is `R[7]` and `FL` is `R[6]` (rule R24). -/
  | aliased
deriving DecidableEq, Repr

/-- The run state of rule R29. -/
inductive RunState where
  | running
  | halted
  | faulted
deriving DecidableEq, Repr

/-- The seven fault causes of rule R200. -/
inductive Cause where
  /-- Code 1, rule R201; info: the opcode byte. -/
  | unknownOpcode
  /-- Code 2, rule R202; info: the address. -/
  | memoryOutOfRange
  /-- Code 3, rule R203; info: the index. -/
  | registerOutOfRange
  /-- Code 4, rule R204; info: the `SP` value that would leave the range. -/
  | stackOutOfRange
  /-- Code 5, rule R205; info: the return address. -/
  | returnAddressOutOfRange
  /-- Code 6, rule R206; info: the operation. -/
  | unsupportedOperation
  /-- Code 7, rule R207; info: the sequence length. -/
  | programTooLarge
deriving DecidableEq, Repr

/-- What `raise <Cause>(info)` of 00_scope.md section 4 carries. -/
structure Raise where
  cause : Cause
  info : Nat
deriving DecidableEq, Repr

/-- The fault record of rule R30. -/
structure FaultRecord where
  cause : Cause
  info : Nat
  fpc : PcWord
deriving DecidableEq, Repr

/-- The whole state. The spec's own tuple (10_state.md) is the fields `regs` to `out`, with `SP` and
`FL` in `special`. The parameters `unknownOpcodePolicy`, `resetFill` and `maxSteps` of rule R6 are
carried beside it because `step` takes nothing else, and `special` carries `REG_ALIAS` (log entry 1).
What the host control interface keeps of its own is in `HostSession` (Machine/HostInterface.lean). -/
structure State where
  /-- `R[0]`..`R[7]`, rule R20. -/
  regs : Vector Byte 8
  /-- `SP` and `FL`, rules R23 to R26. -/
  special : SpecialCells
  /-- `pc`, rules R27 and R28. -/
  pc : PcWord
  /-- `M`, rule R50. -/
  mem : Memory
  /-- `run`, rule R29. -/
  run : RunState
  /-- `fault`, rule R30. -/
  faultRecord : Option FaultRecord
  /-- `OUT`, rule R31, oldest byte first. -/
  out : List Byte
  /-- `UNKNOWN_OPCODE_POLICY`, rule R6. -/
  unknownOpcodePolicy : UnknownOpcodePolicy
  /-- `RESET_FILL`, rule R6; the next reset reads it. -/
  resetFill : ResetFill
  /-- `MAX_STEPS`, rule R6; the host's `run` reads it. -/
  maxSteps : Option Nat
deriving DecidableEq, Repr

/-- Why there is no next state. The seven causes of rule R200 are NOT here: a fault of the core is a
next state whose run state is `FAULTED` (rule R210). -/
inductive Fault where
  /-- Raised by `step` in `HALTED`: "In `HALTED` and in `FAULTED` the core has no step" (rule R105). Safe. -/
  | haltedHasNoStep
  /-- Raised by `step` in `FAULTED` (rule R105). Safe. -/
  | faultedHasNoStep
deriving DecidableEq, Repr

/-- Why an instruction has no meaning. No arm of `exec` answers with it. -/
inductive Refusal where
  /-- Raised by an arm of `exec` whose instruction is not modelled; there is none. Safe. -/
  | notModelled (mnemonic : String)
deriving DecidableEq, Repr

/-- The machine after reset with every parameter at its default (rules R6, R32 and R230):
`RESET_FILL = ZERO`, so `R[0]`..`R[5]` and all of memory are 0. Nothing is loaded. -/
def State.reset : State :=
  { regs := #v[0, 0, 0, 0, 0, 0, Config.flReset, Config.spReset]
    special := .decoupled Config.spReset Config.flReset
    pc := Config.pcReset
    mem := []
    run := .running
    faultRecord := none
    out := []
    unknownOpcodePolicy := .fault
    resetFill := .zero
    maxSteps := none }

end Sys2Proof.Machine
end

