-- ==== Sys2Proof/Machine/Ops.lean ====
section
/-! DEFINITION. The named operations over memory, registers and the fault record: every read and
write of the state goes through one of them. -/

namespace Sys2Proof.Machine

/-! ## Memory as data -/

/-- The canonical form: addresses strictly rising and inside 0..255, no cell that holds what an
unlisted address reads as. -/
abbrev Memory.wf (m : Memory) : Prop :=
  m.Pairwise (fun c d => c.1 < d.1) ∧ ∀ c ∈ m, c.1 < Config.memSize ∧ c.2 ≠ Config.unlistedByte

/-- `M[a]`; an unlisted address reads as `Config.unlistedByte` (rule R32, log entry 3). -/
def Memory.read : Memory → Nat → Byte
  | [], _ => Config.unlistedByte
  | c :: m, a => if c.1 = a then c.2 else Memory.read m a

/-- The memory without a listed cell at `a`. -/
def Memory.erase (m : Memory) (a : Nat) : Memory := m.filter (fun c => c.1 != a)

/-- The memory with a cell listed at `a`, put before the first higher address. -/
def Memory.insert : Memory → Nat → Byte → Memory
  | [], a, v => [(a, v)]
  | c :: m, a, v => if a < c.1 then (a, v) :: c :: m else c :: Memory.insert m a v

/-- `M[a] <- v`, keeping the canonical form. -/
def Memory.write (m : Memory) (a : Nat) (v : Byte) : Memory :=
  if v = Config.unlistedByte then m.erase a else (m.erase a).insert a v

/-- The bytes `vs` written from address `a` upward, in order (rule R234). -/
def Memory.writeList : Memory → Nat → List Byte → Memory
  | m, _, [] => m
  | m, a, v :: vs => Memory.writeList (m.write a v) (a + 1) vs

/-! ## Registers

`SP` and `FL` have one home each: cells of their own under `DECOUPLED`, `R[7]` and `R[6]` under
`ALIASED` (rules R23 and R24). -/

/-- `REG_ALIAS`, read off the storage. -/
def State.regAlias (s : State) : RegAlias :=
  match s.special with
  | .decoupled _ _ => .decoupled
  | .aliased => .aliased

/-- The four parameters of rule R6 the machine runs under. -/
def State.config (s : State) : Config :=
  { unknownOpcodePolicy := s.unknownOpcodePolicy
    regAlias := s.regAlias
    resetFill := s.resetFill
    maxSteps := s.maxSteps }

/-- `R[i]` (rule R20). -/
def State.reg (s : State) (i : Fin 8) : Byte := s.regs[i]

/-- `R[i] <- v` (rule R20). Under `ALIASED` this is also the write of `SP` (`i = 7`) or `FL` (`i = 6`),
since they are the same cell (rule R24). -/
def State.setReg (s : State) (i : Fin 8) (v : Byte) : State := { s with regs := s.regs.set i v }

/-- `SP` (rule R25). -/
def State.sp (s : State) : Byte :=
  match s.special with
  | .decoupled sp _ => sp
  | .aliased => s.reg 7

/-- `SP <- v` (rule R25). -/
def State.setSp (s : State) (v : Byte) : State :=
  match s.special with
  | .decoupled _ fl => { s with special := .decoupled v fl }
  | .aliased => s.setReg 7 v

/-- `FL` (rule R26). -/
def State.fl (s : State) : Byte :=
  match s.special with
  | .decoupled _ fl => fl
  | .aliased => s.reg 6

/-- `FL <- v` (rule R26). -/
def State.setFl (s : State) (v : Byte) : State :=
  match s.special with
  | .decoupled sp _ => { s with special := .decoupled sp v }
  | .aliased => s.setReg 6 v

/-- `pc <- v` (rule R27). -/
def State.setPc (s : State) (v : PcWord) : State := { s with pc := v }

/-- `pc <- pc + k`: the advance a handler makes for itself (rules R27 and R102). -/
def State.advance (s : State) (k : Nat) : State := s.setPc (s.pc + BitVec.ofNat 9 k)

/-- `M <- m`: the state with another memory. -/
def State.setMem (s : State) (m : Memory) : State := { s with mem := m }

/-- `emit(v)`: append to `OUT` (rule R31). -/
def State.emit (s : State) (v : Byte) : State := { s with out := s.out ++ [v] }

/-- `run <- r` (rule R29). -/
def State.setRun (s : State) (r : RunState) : State := { s with run := r }

/-! ## Faults -/

/-- A computation that may `raise` (00_scope.md section 4). Its writes are kept only if it ends
without a `raise` (rule R101). -/
abbrev Checked (α : Type) : Type := Except Raise α

/-- Taking a fault (rule R210): the run state becomes `FAULTED`, the record gets the cause, the info
and the `pc` the step began with, and nothing else changes. There is no return from it (rule R211);
only the host's reset leaves `FAULTED` (`hostReset` in Machine/HostInterface.lean). -/
def State.raise (s : State) (r : Raise) : State :=
  { s with run := .faulted, faultRecord := some { cause := r.cause, info := r.info, fpc := s.pc } }

/-- The numeric code of a cause (rule R200, decision D8). -/
def Cause.code : Cause → Nat
  | .unknownOpcode => 1
  | .memoryOutOfRange => 2
  | .registerOutOfRange => 3
  | .stackOutOfRange => 4
  | .returnAddressOutOfRange => 5
  | .unsupportedOperation => 6
  | .programTooLarge => 7

/-- A step from `s` is all or nothing (rule R101): every write of a body that raises nothing, or
none of them and the fault taken from `s` itself. -/
def finish (s : State) (body : Checked State) : Host.Outcome State Fault Refusal :=
  match body with
  | .ok t => .next t
  | .error r => .next (s.raise r)

/-! ## Checked accesses -/

/-- `MemRead(addr, 1)` of rule R51. -/
def memRead (addr : Nat) (s : State) : Checked Byte :=
  if Config.memSize ≤ addr then .error { cause := .memoryOutOfRange, info := addr }
  else .ok (s.mem.read addr)

/-- `MemWrite(addr, 1, v)` of rule R51. -/
def memWrite (addr : Nat) (v : Byte) (s : State) : Checked State :=
  if Config.memSize ≤ addr then .error { cause := .memoryOutOfRange, info := addr }
  else .ok (s.setMem (s.mem.write addr v))

/-- The move of `SP` a push makes, after the check for it (rules R161 and R204). -/
def spDown (s : State) : Checked State :=
  if s.sp = 0x00 then .error { cause := .stackOutOfRange, info := 0 }
  else .ok (s.setSp (s.sp - 1))

/-- The move of `SP` a pop makes, after the check for it (rules R162 and R204). -/
def spUp (s : State) : Checked State :=
  if s.sp = 0xFF then .error { cause := .stackOutOfRange, info := 255 }
  else .ok (s.setSp (s.sp + 1))

end Sys2Proof.Machine
end

