-- ==== Sys2Proof/Machine/Operands.lean ====
section
/-! DEFINITION. The operand kinds of rule R74 and the values they become. -/

namespace Sys2Proof.Machine

/-- A register operand at the moment the register is accessed (rules R21 and R203): the index, or
`RegisterOutOfRange` with the operand byte. There is no masking to 3 bits (rule R74). An immediate
operand needs no definition: the byte is used as it stands. -/
def regIndex (a : Byte) : Checked (Fin 8) :=
  if h : a.toNat < Config.nReg then .ok ⟨a.toNat, h⟩
  else .error { cause := .registerOutOfRange, info := a.toNat }

/-- `zext_9` of 00_scope.md section 4: a byte as a `pc` value (rule R28). -/
def zext9 (v : Byte) : PcWord := BitVec.ofNat 9 v.toNat

/-- The return address of a CALL, computed exactly, or `ReturnAddressOutOfRange` where it does not
fit a byte (rules R181 and R205). -/
def returnAddress (s : State) : Checked Byte :=
  if Config.memSize ≤ s.pc.toNat + 2 then
    .error { cause := .returnAddressOutOfRange, info := s.pc.toNat + 2 }
  else .ok (BitVec.ofNat 8 (s.pc.toNat + 2))

end Sys2Proof.Machine
end

