-- ==== Sys2Proof/Machine/Alu.lean ====
section
/-! DEFINITION. The ALU and its three instructions ADD, MUL and CMP (42_alu.md). -/

namespace Sys2Proof.Machine

/-- What the ALU is asked to do (rule R140). `other` is an operation code it does not have (rule R145);
no instruction asks for one. -/
inductive AluOp where
  | add
  | mul
  | cmp
  | other (tag : Nat)
deriving DecidableEq, Repr

/-- The exact sum reduced mod 256 (rule R141). -/
def addBytes (x y : Byte) : Byte := BitVec.ofNat 8 (x.toNat + y.toNat)

/-- The exact product reduced mod 256 (rule R141). -/
def mulBytes (x y : Byte) : Byte := BitVec.ofNat 8 (x.toNat * y.toNat)

/-- `apply(op, dest, src)` of rule R140: a result goes to the destination register, a comparison to
`FL`, and any other operation is `UnsupportedOperation` (rule R145). -/
def aluApply (op : AluOp) (dest src : Fin 8) (s : State) : Checked State :=
  match op with
  | .add => .ok (s.setReg dest (addBytes (s.reg dest) (s.reg src)))
  | .mul => .ok (s.setReg dest (mulBytes (s.reg dest) (s.reg src)))
  | .cmp => .ok (s.setFl (compareFlags (s.reg dest) (s.reg src)))
  | .other tag => .error { cause := .unsupportedOperation, info := tag }

/-- An instruction of format `F2RR`: `a` is checked first, then `b` (rule R142, decision D12). -/
def aluBody (op : AluOp) (a b : Byte) (s : State) : Checked State := do
  let i ← regIndex a
  let j ← regIndex b
  let t ← aluApply op i j s
  return t.advance 3

/-- ADD, rule R142. -/
def execAdd (a b : Byte) (s : State) : Host.Outcome State Fault Refusal :=
  finish s (aluBody .add a b s)

/-- MUL, rule R143. -/
def execMul (a b : Byte) (s : State) : Host.Outcome State Fault Refusal :=
  finish s (aluBody .mul a b s)

/-- CMP, rule R144. -/
def execCmp (a b : Byte) (s : State) : Host.Outcome State Fault Refusal :=
  finish s (aluBody .cmp a b s)

end Sys2Proof.Machine
end

