-- ==== Sys2Proof/Machine/ControlTransfer.lean ====
section
/-! DEFINITION. CALL, RET, JMP and JEQ (44_control_transfer.md). -/

namespace Sys2Proof.Machine

/-- CALL, rule R181: index, stack and return address are checked in that order, and the target is
read after the push. -/
def execCall (a : Byte) (s : State) : Host.Outcome State Fault Refusal :=
  finish s do
    let i ← regIndex a
    let t ← spDown s
    let ret ← returnAddress s
    let u ← memWrite t.sp.toNat ret t
    return u.setPc (zext9 (u.reg i))

/-- RET, rule R182. -/
def execRet (s : State) : Host.Outcome State Fault Refusal :=
  finish s do
    let v ← memRead s.sp.toNat s
    let t ← spUp s
    return t.setPc (zext9 v)

/-- JMP, rule R183. -/
def execJmp (a : Byte) (s : State) : Host.Outcome State Fault Refusal :=
  finish s do
    let i ← regIndex a
    return s.setPc (zext9 (s.reg i))

/-- JEQ, rule R184: taken only if `FL` is exactly `E`; a JEQ that is not taken accesses no register. -/
def execJeq (a : Byte) (s : State) : Host.Outcome State Fault Refusal :=
  finish s <|
    if s.fl = flagE then do
      let i ← regIndex a
      return s.setPc (zext9 (s.reg i))
    else return s.advance 2

end Sys2Proof.Machine
end

