-- ==== Sys2Proof/Machine/DataMovement.lean ====
section
/-! DEFINITION. LDI and PRN (41_data_movement.md). -/

namespace Sys2Proof.Machine

/-- LDI, rule R121. -/
def execLdi (a b : Byte) (s : State) : Host.Outcome State Fault Refusal :=
  finish s do
    let i ← regIndex a
    return (s.setReg i b).advance 3

/-- PRN, rule R122. -/
def execPrn (a : Byte) (s : State) : Host.Outcome State Fault Refusal :=
  finish s do
    let i ← regIndex a
    return (s.emit (s.reg i)).advance 2

end Sys2Proof.Machine
end

