-- ==== Sys2Proof/Machine/Stack.lean ====
section
/-! DEFINITION. PUSH and POP (43_stack.md). -/

namespace Sys2Proof.Machine

/-- PUSH, rule R161: `R[a]` is read after `SP` is written, so under `ALIASED` PUSH R7 stores the
decremented `SP`. -/
def execPush (a : Byte) (s : State) : Host.Outcome State Fault Refusal :=
  finish s do
    let i ← regIndex a
    let t ← spDown s
    let u ← memWrite t.sp.toNat (t.reg i) t
    return u.advance 2

/-- POP, rule R162: the register is written before `SP` is incremented, so under `ALIASED` POP R7
leaves the popped byte plus one in `SP`. -/
def execPop (a : Byte) (s : State) : Host.Outcome State Fault Refusal :=
  finish s do
    let i ← regIndex a
    let v ← memRead s.sp.toNat s
    let t ← spUp (s.setReg i v)
    return t.advance 2

end Sys2Proof.Machine
end

