-- ==== Sys2Proof/Machine/System.lean ====
section
/-! DEFINITION. HLT and the unknown opcodes (40_dispatch.md). -/

namespace Sys2Proof.Machine

/-- HLT, rule R103: the run state becomes `HALTED` and `pc` does not move. -/
def execHlt (s : State) : Host.Outcome State Fault Refusal :=
  finish s (.ok (s.setRun .halted))

/-- An unknown opcode, rule R104: `UnknownOpcode` under `FAULT`, an advance by one byte under `SKIP`.
It is no instruction of the table, so `step` calls it, not `exec`. -/
def execUnknown (op : Byte) (s : State) : Host.Outcome State Fault Refusal :=
  finish s <|
    match s.unknownOpcodePolicy with
    | .fault => .error { cause := .unknownOpcode, info := op.toNat }
    | .skip => .ok (s.advance 1)

end Sys2Proof.Machine
end

