-- ==== Sys2Proof/Syntax.lean ====
section
/-! DEFINITION. The abstract syntax: one constructor per row of the opcode table (rule R75). -/

namespace Sys2Proof

/-- The twelve instructions of CA8-12 (rules R2 and R75). An operand is the whole operand byte
(rule R74): a register operand may hold any of 0..255, and one above 7 is a fault of the running
instruction, never of decoding (rule R77). -/
inductive Instr where
  /-- HALT, rule R103. -/
  | hlt
  /-- RETURN, rule R182. -/
  | ret
  /-- PUSH, rule R161. -/
  | push (a : Byte)
  /-- POP, rule R162. -/
  | pop (a : Byte)
  /-- PRINT-REGISTER, rule R122. -/
  | prn (a : Byte)
  /-- CALL, rule R181. -/
  | call (a : Byte)
  /-- JUMP, rule R183. -/
  | jmp (a : Byte)
  /-- BRANCH-IF-EQUAL, rule R184. -/
  | jeq (a : Byte)
  /-- LOAD-IMMEDIATE, rule R121: register `a`, immediate `b`. -/
  | ldi (a b : Byte)
  /-- ADD, rule R142: destination and first source `a`, second source `b`. -/
  | add (a b : Byte)
  /-- MULTIPLY, rule R143: destination and first source `a`, second source `b`. -/
  | mul (a b : Byte)
  /-- COMPARE, rule R144: first source `a`, second source `b`. -/
  | cmp (a b : Byte)
deriving DecidableEq, Repr

end Sys2Proof
end

