-- ==== Sys2Proof/Decode.lean ====
section
/-! DEFINITION. The opcode map, the decoder from bytes and the encoder to bytes (30_encoding.md). -/

namespace Sys2Proof

/-! The opcode bytes of rule R75. HLT, PRN, LDI and ADD are the source's own; the other eight are
the spec's decision D1 (log entry 7). -/

abbrev Opcode.hlt : Byte := 0x01
abbrev Opcode.ret : Byte := 0x11
abbrev Opcode.push : Byte := 0x45
abbrev Opcode.pop : Byte := 0x46
abbrev Opcode.prn : Byte := 0x47
abbrev Opcode.call : Byte := 0x50
abbrev Opcode.jmp : Byte := 0x54
abbrev Opcode.jeq : Byte := 0x55
abbrev Opcode.ldi : Byte := 0x82
abbrev Opcode.add : Byte := 0xA0
abbrev Opcode.mul : Byte := 0xA2
abbrev Opcode.cmp : Byte := 0xA7

/-- The opcode column of the table of rule R75, in its order. -/
def Opcode.table : List Byte :=
  [Opcode.hlt, Opcode.ret, Opcode.push, Opcode.pop, Opcode.prn, Opcode.call, Opcode.jmp,
    Opcode.jeq, Opcode.ldi, Opcode.add, Opcode.mul, Opcode.cmp]

/-- The operand count `n = op >> 6`, 0..3 (rule R72). -/
def operandCount (op : Byte) : Nat := op.toNat >>> 6

/-- The rows of format `F0` (rules R74 and R75). -/
def decodeF0 (op : Byte) : Option Instr :=
  if op = Opcode.hlt then some .hlt
  else if op = Opcode.ret then some .ret
  else none

/-- The rows of format `F1R` (rules R74 and R75). -/
def decodeF1 (op a : Byte) : Option Instr :=
  if op = Opcode.push then some (.push a)
  else if op = Opcode.pop then some (.pop a)
  else if op = Opcode.prn then some (.prn a)
  else if op = Opcode.call then some (.call a)
  else if op = Opcode.jmp then some (.jmp a)
  else if op = Opcode.jeq then some (.jeq a)
  else none

/-- The rows of the formats `F2RI` and `F2RR` (rules R74 and R75). -/
def decodeF2 (op a b : Byte) : Option Instr :=
  if op = Opcode.ldi then some (.ldi a b)
  else if op = Opcode.add then some (.add a b)
  else if op = Opcode.mul then some (.mul a b)
  else if op = Opcode.cmp then some (.cmp a b)
  else none

/-- The row of an opcode byte with its fetched operand bytes, or none for an unknown opcode
(rules R76 and R77). An opcode with three operand bytes has no row (rule R70). -/
def decodeRow (op : Byte) : List Byte → Option Instr
  | [] => decodeF0 op
  | [a] => decodeF1 op a
  | [a, b] => decodeF2 op a b
  | _ => none

/-- Why bytes do not decode. -/
inductive DecodeError where
  /-- The bytes end before the instruction does; `present` is how many there were. -/
  | truncated (present : Nat)
  /-- The opcode byte has no row in the table (rule R76). -/
  | unknownOpcode (op : Byte)
deriving DecidableEq, Repr

/-- The decoder, total on any bytes: the instruction and the bytes after it. HALT is recognised
before the operand count (rule R79), and a missing operand byte is met before an unknown opcode
(rule R107). -/
def decode : List Byte → Except DecodeError (Instr × List Byte)
  | [] => .error (.truncated 0)
  | op :: rest =>
    if op = Opcode.hlt then .ok (.hlt, rest)
    else if rest.length < operandCount op then .error (.truncated (rest.length + 1))
    else
      match decodeRow op (rest.take (operandCount op)) with
      | some i => .ok (i, rest.drop (operandCount op))
      | none => .error (.unknownOpcode op)

/-- The bytes of an instruction, opcode first (rules R73, R75 and R81). -/
def encode : Instr → List Byte
  | .hlt => [Opcode.hlt]
  | .ret => [Opcode.ret]
  | .push a => [Opcode.push, a]
  | .pop a => [Opcode.pop, a]
  | .prn a => [Opcode.prn, a]
  | .call a => [Opcode.call, a]
  | .jmp a => [Opcode.jmp, a]
  | .jeq a => [Opcode.jeq, a]
  | .ldi a b => [Opcode.ldi, a, b]
  | .add a b => [Opcode.add, a, b]
  | .mul a b => [Opcode.mul, a, b]
  | .cmp a b => [Opcode.cmp, a, b]

/-- The first `k` bytes of a number, least significant byte first: the order in which an
instruction's bytes stand at increasing addresses (rule R54). -/
def lowBytes : Nat → Nat → List Byte
  | 0, _ => []
  | k + 1, w => BitVec.ofNat 8 w :: lowBytes k (w / 256)

/-- The bytes of a table word: `nbits` bits of `w`, every bit above them 0, as many bytes as the
longest fetch reads (rule R70: an opcode byte and three operand bytes). -/
def tableBytes (nbits w : Nat) : List Byte := lowBytes 4 (w % 2 ^ nbits)

/-- The instruction the decoder reads from a table word. -/
def decodeTableWord (nbits w : Nat) : Option Instr :=
  match decode (tableBytes nbits w) with
  | .ok (i, _) => some i
  | .error _ => none

end Sys2Proof
end

