-- ==== Sys2Proof/Machine/Fetch.lean ====
section
/-! DEFINITION. Fetching an instruction's bytes (rules R100, R107), and storing one where the next
step fetches it. -/

namespace Sys2Proof.Machine

/-- `n` bytes read from `addr` upward, one checked read each, lowest address first (rules R53 and R100). -/
def readBytes (s : State) : Nat → Nat → Checked (List Byte)
  | _, 0 => return []
  | addr, n + 1 => do
    let v ← memRead addr s
    let vs ← readBytes s (addr + 1) n
    return v :: vs

/-- Steps 1 to 4 of rule R100: the opcode byte and, except for HALT, its `op >> 6` operand bytes. -/
def fetch (s : State) : Checked (Byte × List Byte) := do
  let op ← memRead s.pc.toNat s
  if op = Opcode.hlt then return (op, [])
  else
    let opnds ← readBytes s (s.pc.toNat + 1) (operandCount op)
    return (op, opnds)

/-- The bytes of memory from `pc` to the last cell, what a fetch can reach; none if `pc` is above 255. -/
def codeBytes (s : State) : List Byte :=
  (List.range (Config.memSize - s.pc.toNat)).map (fun k => s.mem.read (s.pc.toNat + k))

/-- The bytes `vs` stored from address `a` upward, as far as memory goes. -/
def storeInRange (m : Memory) (a : Nat) (vs : List Byte) : Memory :=
  m.writeList a (vs.take (Config.memSize - a))

end Sys2Proof.Machine
end

