-- ==== Sys2Proof/Machine/Step.lean ====
section
/-! DEFINITION. One step of the core (rules R100 and R105). -/

namespace Sys2Proof.Machine

/-- The step of rule R100 from a `RUNNING` state: fetch, decode, execute. -/
def stepRunning (s : State) : Host.Outcome State Fault Refusal :=
  match fetch s with
  | .error r => .next (s.raise r)
  | .ok (op, opnds) =>
    match decodeRow op opnds with
    | some i => exec i s
    | none => execUnknown op s

/-- One step. A stopped core has none (rule R105). -/
def step (s : State) : Host.Outcome State Fault Refusal :=
  match s.run with
  | .running => stepRunning s
  | .halted => .fault .haltedHasNoStep
  | .faulted => .fault .faultedHasNoStep

/-- `s` with the instruction of a table word stored at `pc`, where the next step fetches it. It stands
for the host's `load` (log entry 5). The run state is `RUNNING` and no fault is recorded, since a stopped
core fetches nothing. -/
def State.withFetchWord (s : State) (nbits w : Nat) : State :=
  { s with
    mem := storeInRange s.mem s.pc.toNat (tableBytes nbits w)
    run := .running
    faultRecord := none }

end Sys2Proof.Machine
end

