-- ==== Sys2Proof/Machine/HostInterface.lean ====
section
/-! DEFINITION. The host control interface (rules R7 and R230 to R241): reset, load, step and run. -/

namespace Sys2Proof.Machine

/-! ## Reset -/

/-- The bytes a reset under `RESET_FILL = ARBITRARY` draws (rule R32): one for each of `R[0]`..`R[5]`
and one for each memory cell. They are an input, under no law (decision D4; log entry 4). -/
structure ResetDraw where
  regs : Vector Byte 6
  cells : Vector Byte 256
deriving DecidableEq, Repr

/-- The initial value of `R[i]`, `i` in 0..5 (rule R32). -/
def resetLowReg (c : Config) (d : ResetDraw) (i : Fin 6) : Byte :=
  match c.resetFill with
  | .zero => 0x00
  | .arbitrary => d.regs[i]

/-- The initial memory (rule R32). -/
def resetMemory (c : Config) (d : ResetDraw) : Memory :=
  match c.resetFill with
  | .zero => []
  | .arbitrary => Memory.writeList [] 0 d.cells.toList

/-- The initial home of `SP` and `FL` (rules R23, R24 and R32). -/
def resetSpecial (c : Config) : SpecialCells :=
  match c.regAlias with
  | .decoupled => .decoupled Config.spReset Config.flReset
  | .aliased => .aliased

/-- Every piece of state after reset (rules R32 and R230). -/
def resetWith (c : Config) (d : ResetDraw) : State :=
  { regs := #v[resetLowReg c d 0, resetLowReg c d 1, resetLowReg c d 2, resetLowReg c d 3,
      resetLowReg c d 4, resetLowReg c d 5, Config.flReset, Config.spReset]
    special := resetSpecial c
    pc := Config.pcReset
    mem := resetMemory c d
    run := .running
    faultRecord := none
    out := []
    unknownOpcodePolicy := c.unknownOpcodePolicy
    resetFill := c.resetFill
    maxSteps := c.maxSteps }

/-- The core with what the host control interface keeps beside it: whether `load` is still allowed
(rule R233). It is no state of the core (rule R33; log entry 2). -/
structure HostSession where
  core : State
  loadOpen : Bool
deriving DecidableEq, Repr

/-- The session a reset leaves: the core of rule R32, and `load` allowed (rule R233). -/
def HostSession.afterReset (c : Config) (d : ResetDraw) : HostSession :=
  { core := resetWith c d, loadOpen := true }

/-- The host's `reset`, allowed in any run state (rule R231). Only the parameters stay. -/
def hostReset (d : ResetDraw) (h : HostSession) : HostSession := HostSession.afterReset h.core.config d

/-! ## What the host asks and gets -/

/-- What `run` returns (rules R7 and R240). `stepLimit` is the host's result, not a core state. -/
inductive RunResult where
  | halted
  | fault (cause : Cause) (info : Nat)
  | stepLimit
deriving DecidableEq, Repr

/-- The operations of the host control interface (rule R240). -/
inductive HostOp where
  | reset (draw : ResetDraw)
  | load (bytes : List Byte)
  | step
  | run
  | readState
  | readOut
deriving DecidableEq, Repr

/-- What the host gets back from an operation (rule R240). -/
inductive HostReply where
  /-- `reset` answers nothing. -/
  | nothing
  /-- `load` answers `ok`. -/
  | ok
  /-- `load` answers `Fault(ProgramTooLarge, len)`. -/
  | fault (cause : Cause) (info : Nat)
  /-- `step` answers the new run state. -/
  | runState (r : RunState)
  /-- `run` answers how it ended, or that the step limit was reached. -/
  | runResult (r : RunResult)
  /-- A read of the state answers every component of it. -/
  | state (s : State)
  /-- A read of `OUT` answers the bytes emitted. -/
  | output (bytes : List Byte)
  /-- The operation is not allowed now: the core does nothing (rule R233; for `step` and `run`
  log entry 13). -/
  | refused
deriving DecidableEq, Repr

/-! ## Load -/

/-- What `load(bytes)` does to the core (rule R234). -/
def loadCore (bytes : List Byte) (s : State) : HostReply × State :=
  if Config.memSize < bytes.length then
    (.fault .programTooLarge bytes.length,
      { s with
        run := .faulted
        faultRecord := some { cause := .programTooLarge, info := bytes.length, fpc := Config.pcReset } })
  else (.ok, s.setMem (s.mem.writeList 0 bytes))

/-- `load(bytes)`, once after a reset and before the first step, else refused (rule R233). -/
def hostLoad (bytes : List Byte) (h : HostSession) : HostReply × HostSession :=
  if h.loadOpen = true then
    ((loadCore bytes h.core).1, { core := (loadCore bytes h.core).2, loadOpen := false })
  else (.refused, h)

/-! ## Step and run -/

/-- `step`, allowed in `RUNNING` (rule R240), else refused (log entry 13). The first step ends the right to
load (rule R233). -/
def hostStep (h : HostSession) : HostReply × HostSession :=
  match step h.core with
  | .next t => (.runState t.run, { core := t, loadOpen := false })
  | .fault _ => (.refused, h)
  | .refused _ => (.refused, h)

/-- The termination result of a state (rules R105 and R241), none while the run has not ended. -/
def State.termination (s : State) : Option RunResult :=
  match s.run, s.faultRecord with
  | .running, _ => none
  | .halted, _ => some .halted
  | .faulted, some f => some (.fault f.cause f.info)
  | .faulted, none => none

/-- Steps while the run state is `RUNNING`, at most `n` of them (rules R106 and R240). -/
def runFor : Nat → State → RunResult × State
  | n, s =>
    match s.termination with
    | some r => (r, s)
    | none =>
      match n with
      | 0 => (.stepLimit, s)
      | n + 1 =>
        match step s with
        | .next t => runFor n t
        | .fault _ => (.stepLimit, s)
        | .refused _ => (.stepLimit, s)

/-- The run from the `RUNNING` state `s` ends in `t` with result `r` (rules R106 and R241). Such a `t` need
not exist, since a run need not end. -/
def RunEnds (s : State) (r : RunResult) (t : State) : Prop :=
  s.run = .running ∧ t.termination = some r ∧ ∃ n, runFor n s = (r, t)

/-- The host's `run` from `RUNNING` with `MAX_STEPS = k` (rule R240). With `k = 0` it takes no step, and
`load` is still allowed if it was (rule R233). -/
def hostRunFor (k : Nat) (h : HostSession) : HostReply × HostSession :=
  (.runResult (runFor k h.core).1,
    { core := (runFor k h.core).2, loadOpen := h.loadOpen && decide (k = 0) })

/-- The host's `run`, allowed in `RUNNING` (rule R240): it answers `reply` and leaves the session `g`. Without
`MAX_STEPS` it answers only if the run ends (rule R106; log entry 13). -/
def HostRun (h : HostSession) (reply : HostReply) (g : HostSession) : Prop :=
  match h.core.run, h.core.maxSteps with
  | .running, some k => (reply, g) = hostRunFor k h
  | .running, none =>
    ∃ r t, RunEnds h.core r t ∧ (reply, g) = (.runResult r, { core := t, loadOpen := false })
  | .halted, _ => (reply, g) = (.refused, h)
  | .faulted, _ => (reply, g) = (.refused, h)

/-- What is observed of a run that has ended (rule R241). -/
structure Observation where
  final : State
  out : List Byte
  result : RunResult
deriving DecidableEq, Repr

/-- The observation of a final state, none while the run has not ended (rule R241). -/
def State.observe (s : State) : Option Observation :=
  s.termination.map (fun r => { final := s, out := s.out, result := r })

/-- The host's operation `op` on `h` answers `reply` and leaves `g` (rule R240). Only a `run` that does not
end answers nothing; every other operation answers once. -/
def HostDoes (op : HostOp) (h : HostSession) (reply : HostReply) (g : HostSession) : Prop :=
  match op with
  | .reset draw => (reply, g) = (.nothing, hostReset draw h)
  | .load bytes => (reply, g) = hostLoad bytes h
  | .step => (reply, g) = hostStep h
  | .run => HostRun h reply g
  | .readState => (reply, g) = (.state h.core, h)
  | .readOut => (reply, g) = (.output h.core.out, h)

/-- The operations `ops`, the first one first, take the session `h` to `g`. -/
def HostDoesAll : List HostOp → HostSession → HostSession → Prop
  | [], h, g => g = h
  | op :: ops, h, g => ∃ reply m, HostDoes op h reply m ∧ HostDoesAll ops m g

end Sys2Proof.Machine
end

