-- ==== Sys2Proof/WellFormed.lean ====
section
/-! DEFINITION. Well-formed instructions: the ones the assembly syntax of rule R81 can write. -/

namespace Sys2Proof

/-- An operand byte that names a register, 0..7 (rules R21 and R74). -/
def registerOperand (a : Byte) : Bool := decide (a.toNat < Config.nReg)

/-- Every register operand names a register; an immediate is unconstrained (rules R74 and R81).
An instruction that is not well formed still decodes and runs (rule R77): it takes the fault of rule R203. -/
def Instr.wellFormed : Instr → Bool
  | .hlt => true
  | .ret => true
  | .push a => registerOperand a
  | .pop a => registerOperand a
  | .prn a => registerOperand a
  | .call a => registerOperand a
  | .jmp a => registerOperand a
  | .jeq a => registerOperand a
  | .ldi a _ => registerOperand a
  | .add a b => registerOperand a && registerOperand b
  | .mul a b => registerOperand a && registerOperand b
  | .cmp a b => registerOperand a && registerOperand b

end Sys2Proof
end

