-- ==== Sys2Proof/Safety.lean ====
section
/-! DEFINITION. What the statements are said in terms of: frames, the legal contents of a fault record,
and the invariant of the machine. -/

namespace Sys2Proof.Machine

/-! ## Frames -/

/-- No byte of memory differs. -/
def MemKept (s t : State) : Prop := ∀ x : Nat, t.mem.read x = s.mem.read x

/-- No byte of memory outside the cell `a` differs. -/
def MemKeptExcept (s t : State) (a : Nat) : Prop := ∀ x : Nat, x ≠ a → t.mem.read x = s.mem.read x

/-- No general register differs. -/
def RegsKept (s t : State) : Prop := ∀ k : Fin 8, t.reg k = s.reg k

/-- No general register other than `R[i]` differs. -/
def RegsKeptExcept (s t : State) (i : Fin 8) : Prop := ∀ k : Fin 8, k ≠ i → t.reg k = s.reg k

/-- The run state, the fault record and the parameters are the same. -/
structure ControlKept (s t : State) : Prop where
  run : t.run = s.run
  faultRecord : t.faultRecord = s.faultRecord
  config : t.config = s.config

/-! ## The invariant -/

/-- A fault record a program or a load can leave: the info column of the table of rule R200, and the
`fpc` where rules R205 and R207 fix it. `UnsupportedOperation` is never left (rule R206). -/
def FaultRecord.Legal (f : FaultRecord) : Prop :=
  match f.cause with
  | .unknownOpcode => f.info < 256 ∧ ∀ op ∈ Opcode.table, op.toNat ≠ f.info
  | .memoryOutOfRange => 256 ≤ f.info ∧ f.info ≤ 258
  | .registerOutOfRange => 8 ≤ f.info ∧ f.info ≤ 255
  | .stackOutOfRange => f.info = 0 ∨ f.info = 255
  | .returnAddressOutOfRange => f.info = 256 ∧ f.fpc = 254
  | .unsupportedOperation => False
  | .programTooLarge => 256 < f.info ∧ f.fpc = 0

/-- What holds of every state the core can be brought to. -/
structure State.Inv (s : State) : Prop where
  /-- Memory is in its canonical form. -/
  mem_wf : s.mem.wf
  /-- Values 259..511 of `pc` are never reached (rule R28). -/
  pc_le : s.pc.toNat ≤ 258
  /-- Under `DECOUPLED`, `FL` is 0x00 or what CMP writes (rule R26). -/
  fl_legal : s.regAlias = .decoupled → s.fl = 0x00 ∨ s.fl = 0x01 ∨ s.fl = 0x02 ∨ s.fl = 0x04
  /-- The fault record is empty unless the run state is `FAULTED` (rule R30). -/
  fault_iff : s.faultRecord.isSome ↔ s.run = .faulted
  /-- A recorded fault is one of the table of rule R200, and `pc` has not moved since (rule R210). -/
  fault_legal : ∀ f, s.faultRecord = some f → f.Legal ∧ f.fpc = s.pc

/-- The invariant of a core with its host: the core's own, and that the host may load only a core that
is still where a reset left it (rule R233). -/
structure HostSession.Inv (h : HostSession) : Prop where
  core : h.core.Inv
  load_open : h.loadOpen = true → h.core.run = .running ∧ h.core.pc = 0 ∧ h.core.out = []

/-! ## Comparing runs -/

/-- The outcome with `f` applied to its next state. -/
def mapNext (f : State → State) : Host.Outcome State Fault Refusal → Host.Outcome State Fault Refusal
  | .next t => .next (f t)
  | .fault r => .fault r
  | .refused r => .refused r

/-- The state with the bytes `o` already emitted before its own output. -/
def State.withEarlierOutput (s : State) (o : List Byte) : State := { s with out := o ++ s.out }

/-- `n` steps take `s` to `t`. -/
def StepsTo : Nat → State → State → Prop
  | 0, s, t => t = s
  | n + 1, s, t => ∃ m, step s = .next m ∧ StepsTo n m t

/-- The opcode byte at `pc` (rule R27). -/
def State.opcodeAtPc (s : State) : Byte := s.mem.read s.pc.toNat

/-- The byte `k` cells above `pc` (rule R73). -/
def State.byteAtPc (s : State) (k : Nat) : Byte := s.mem.read (s.pc.toNat + k)

/-- The state a fault raised at `s` leaves (rules R101 and R210): written field by field, not with `State.raise`. -/
def State.faultedWith (s : State) (cause : Cause) (info : Nat) : State :=
  { s with
    run := .faulted
    faultRecord := some { cause := cause, info := info, fpc := s.pc } }

/-! ## When a step faults -/

/-- The value of `SP` that a POP of register operand `a` increments (rule R162): the popped byte for
POP R7 under `ALIASED`, else `SP`. -/
def State.popBase (s : State) (a : Byte) : Byte :=
  if s.regAlias = .aliased ∧ a = 7 then s.mem.read s.sp.toNat else s.sp

/-- The register operands an instruction accesses, in the order it checks them (rules R21 and R212);
a JEQ accesses its register only when taken (rule R184). -/
def accessedOperands (s : State) : Instr → List Byte
  | .hlt => []
  | .ret => []
  | .push a => [a]
  | .pop a => [a]
  | .prn a => [a]
  | .call a => [a]
  | .jmp a => [a]
  | .jeq a => if s.fl = 0x01 then [a] else []
  | .ldi a _ => [a]
  | .add a b => [a, b]
  | .mul a b => [a, b]
  | .cmp a b => [a, b]

/-- The checks of rule R212 for the step from `s`, in its order: whether each one raises, and what. -/
def faultChecks (s : State) : List (Bool × Cause × Nat) :=
  let pc := s.pc.toNat
  let op := s.opcodeAtPc
  let a := s.byteAtPc 1
  let b := s.byteAtPc 2
  let readsA := op ∈ [0x45, 0x46, 0x47, 0x50, 0x54, 0x82, 0xA0, 0xA2, 0xA7] ∨ (op = 0x55 ∧ s.fl = 0x01)
  let readsB := op ∈ [0xA0, 0xA2, 0xA7]
  [ (decide (255 < pc), .memoryOutOfRange, pc),
    (decide (op ≠ 0x01 ∧ 255 < pc + op.toNat / 64), .memoryOutOfRange, 256),
    (decide (op ∉ Opcode.table ∧ s.unknownOpcodePolicy = .fault), .unknownOpcode, op.toNat),
    (decide (readsA ∧ 7 < a.toNat), .registerOutOfRange, a.toNat),
    (decide (readsB ∧ 7 < b.toNat), .registerOutOfRange, b.toNat),
    (decide (op ∈ [0x45, 0x50] ∧ s.sp = 0), .stackOutOfRange, 0),
    (decide ((op = 0x46 ∧ s.popBase a = 255) ∨ (op = 0x11 ∧ s.sp = 255)), .stackOutOfRange, 255),
    (decide (op = 0x50 ∧ 255 < pc + 2), .returnAddressOutOfRange, pc + 2) ]

/-- The fault the step from `s` takes by rule R212: the first check that raises; none if none does. -/
def firstFault (s : State) : Option (Cause × Nat) := ((faultChecks s).find? (·.1)).map (·.2)

/-- An instruction with this opcode faults at operand fetch from address `first` to 255 (rule R107). -/
def OperandFetchFaultsFrom (op : Byte) (first : Nat) : Prop :=
  ∀ s : State, s.run = .running → first ≤ s.pc.toNat → s.pc.toNat ≤ 255 → s.opcodeAtPc = op →
    step s = .next (s.faultedWith .memoryOutOfRange 256)

end Sys2Proof.Machine
end

