-- ==== Sys2Proof/Certificates/Slice0/Obligations.lean ====
section
/-! DEFINITION. The statements about the CA8 core, for the provers. Each docstring names the rules of
the spec a statement formalises, and what it rests on beside them. -/

open Sys2Proof Sys2Proof.Machine

/-! ## Encoding -/

/-- Decoding and encoding are inverse, for every instruction with every operand byte and whatever bytes
follow it: bytes decode to an instruction exactly when they begin with its encoding. So no bit is dropped,
and no two byte sequences mean the same instruction (rules R73, R75 and R77). -/
def Obligations.DecodeAndEncodeAreInverse : Prop :=
  ∀ (bytes rest : List Byte) (i : Instr), decode bytes = .ok (i, rest) ↔ bytes = encode i ++ rest

/-- The opcode table of rule R75: what each of the twelve byte values selects, its operand count in
bits 7:6, and that no other byte value selects anything. -/
def Obligations.OpcodeTableHasExactlyTwelveRows : Prop :=
  (∀ (a b : Byte) (rest : List Byte),
    decode (0x01 :: rest) = .ok (.hlt, rest) ∧
    decode (0x11 :: rest) = .ok (.ret, rest) ∧
    decode (0x45 :: a :: rest) = .ok (.push a, rest) ∧
    decode (0x46 :: a :: rest) = .ok (.pop a, rest) ∧
    decode (0x47 :: a :: rest) = .ok (.prn a, rest) ∧
    decode (0x50 :: a :: rest) = .ok (.call a, rest) ∧
    decode (0x54 :: a :: rest) = .ok (.jmp a, rest) ∧
    decode (0x55 :: a :: rest) = .ok (.jeq a, rest) ∧
    decode (0x82 :: a :: b :: rest) = .ok (.ldi a b, rest) ∧
    decode (0xA0 :: a :: b :: rest) = .ok (.add a b, rest) ∧
    decode (0xA2 :: a :: b :: rest) = .ok (.mul a b, rest) ∧
    decode (0xA7 :: a :: b :: rest) = .ok (.cmp a b, rest)) ∧
  ∀ (op : Byte) (bytes rest : List Byte) (i : Instr), decode (op :: bytes) = .ok (i, rest) →
    op ∈ ([0x01, 0x11, 0x45, 0x46, 0x47, 0x50, 0x54, 0x55, 0x82, 0xA0, 0xA2, 0xA7] : List Byte)

/-- A few byte sequences written out from the encodings of rules R75 and R81, the program of the source's
end-to-end scenario among them; and two that are refused: 0x00 is unknown (rule R76), and the three operand
bytes of 0xC0 are asked for before it is found unknown (rules R70 and R107; the decoder's named refusal of
missing bytes is log entry 14). -/
def Obligations.SampleWordsDecode : Prop :=
  decode [0x82, 0x00, 0x08] = .ok (.ldi 0 8, []) ∧
  decode [0xA0, 0x00, 0x01] = .ok (.add 0 1, []) ∧
  decode [0x47, 0x00] = .ok (.prn 0, []) ∧
  decode [0x01] = .ok (.hlt, []) ∧
  decode [0x50, 0x01] = .ok (.call 1, []) ∧
  decode [0x45, 0xFF] = .ok (.push 255, []) ∧
  decode [0x00] = .error (.unknownOpcode 0) ∧
  decode [0xC0, 1, 2] = .error (.truncated 3)

/-- An opcode byte is unknown exactly when it equals no row, whatever operand bytes follow; the operand
bytes must be there first (rules R76, R77 and R107). -/
def Obligations.DecoderRefusesExactlyTheOtherBytes : Prop :=
  ∀ (op : Byte) (bytes : List Byte),
    decode (op :: bytes) = .error (.unknownOpcode op) ↔
      op ∉ ([0x01, 0x11, 0x45, 0x46, 0x47, 0x50, 0x54, 0x55, 0x82, 0xA0, 0xA2, 0xA7] : List Byte) ∧
        op.toNat / 64 ≤ bytes.length

/-- Rule R79: the opcode byte alone tells the length, `1 + op[7:6]`; it is 1 for HALT. -/
def Obligations.LengthComesFromTheOpcodeByte : Prop :=
  (∀ (op : Byte) (bytes rest : List Byte) (i : Instr), decode (op :: bytes) = .ok (i, rest) →
    (op :: bytes).length = (1 + op.toNat / 64) + rest.length) ∧
  ∀ bytes : List Byte, decode (0x01 :: bytes) = .ok (.hlt, bytes)

/-! ## The step -/

/-- When the bytes from `pc` up decode to an instruction, the step is that instruction's effect on the
same state (rule R100): the handler alone writes `pc` (rule R102). -/
def Obligations.StepRunsTheDecodedInstruction : Prop :=
  ∀ (s : State) (i : Instr) (rest : List Byte), s.run = .running →
    decode (codeBytes s) = .ok (i, rest) → step s = exec i s

/-- The byte-by-byte fetch of rule R100 refines decoding the bytes of memory from `pc` up as a whole:
an instruction runs, an unknown opcode follows its rule, and missing bytes are `MemoryOutOfRange` at
the first address that is not there. -/
def Obligations.FetchRefinesDecodingMemory : Prop :=
  ∀ s : State, s.run = .running →
    step s =
      match decode (codeBytes s) with
      | .ok (i, _) => exec i s
      | .error (.unknownOpcode op) => execUnknown op s
      | .error (.truncated present) =>
        .next (s.faultedWith .memoryOutOfRange (s.pc.toNat + present))

/-- A core that is `HALTED` or `FAULTED` has no step and its run returns why, and a fetch at an unmapped `pc`
is `MemoryOutOfRange` (rule R105). That a `RUNNING` core always has a step is derived from rule R100
(93_implementation_defined.md); the names of the two stops are the model's own (log entry 9). -/
def Obligations.CoreStepsExactlyWhileRunning : Prop :=
  ∀ s : State,
    ((∃ t, step s = .next t) ↔ s.run = .running) ∧
    (s.run = .halted → step s = .fault .haltedHasNoStep ∧ ∀ n, runFor n s = (.halted, s)) ∧
    (s.run = .faulted → step s = .fault .faultedHasNoStep ∧
      ∀ f, s.faultRecord = some f → ∀ n, runFor n s = (.fault f.cause f.info, s)) ∧
    (s.run = .running → 255 < s.pc.toNat →
      step s = .next (s.faultedWith .memoryOutOfRange s.pc.toNat))

/-- Rule R104: an unknown opcode, after its operand bytes have been read, faults under `FAULT` and
advances one byte and does nothing else under `SKIP`; under either, operand bytes that are missing
fault first. -/
def Obligations.UnknownOpcodeFollowsThePolicy : Prop :=
  ∀ s : State, s.run = .running → s.pc.toNat ≤ 255 → s.opcodeAtPc ∉ Opcode.table →
    (s.pc.toNat + s.opcodeAtPc.toNat / 64 ≤ 255 → s.unknownOpcodePolicy = .fault →
      step s = .next (s.faultedWith .unknownOpcode s.opcodeAtPc.toNat)) ∧
    (s.pc.toNat + s.opcodeAtPc.toNat / 64 ≤ 255 → s.unknownOpcodePolicy = .skip →
      step s = .next { s with pc := s.pc + 1 }) ∧
    (255 < s.pc.toNat + s.opcodeAtPc.toNat / 64 →
      step s = .next (s.faultedWith .memoryOutOfRange 256))

/-- Rule R27: the new `pc` of every step that does not fault, by the opcode it runs. The target of
CALL is read after the push (rule R181), so it is the register's value in the state after the step. -/
def Obligations.ProgramCounterFollowsTheTable : Prop :=
  ∀ s t : State, step s = .next t → t.run ≠ .faulted →
    (s.opcodeAtPc ∈ ([0x82, 0xA0, 0xA2, 0xA7] : List Byte) → t.pc.toNat = s.pc.toNat + 3) ∧
    (s.opcodeAtPc ∈ ([0x47, 0x45, 0x46] : List Byte) → t.pc.toNat = s.pc.toNat + 2) ∧
    (s.opcodeAtPc = 0x55 ∧ s.fl ≠ 0x01 → t.pc.toNat = s.pc.toNat + 2) ∧
    (s.opcodeAtPc ∈ ([0x50, 0x54] : List Byte) ∨ (s.opcodeAtPc = 0x55 ∧ s.fl = 0x01) →
      ∃ i : Fin 8, (s.byteAtPc 1).toNat = i.val ∧ t.pc.toNat = (t.reg i).toNat) ∧
    (s.opcodeAtPc = 0x11 → t.pc.toNat = (s.mem.read s.sp.toNat).toNat) ∧
    (s.opcodeAtPc = 0x01 → t.pc = s.pc) ∧
    (s.opcodeAtPc ∉ Opcode.table → t.pc.toNat = s.pc.toNat + 1)

/-! ## Faults -/

/-- Rule R210: a step that faults changes nothing but the run state and the fault record, whose `fpc` is the
`pc` the step began with, and the run returns that fault. -/
def Obligations.FaultsArePrecise : Prop :=
  ∀ s t : State, step s = .next t → t.run = .faulted →
    ∃ cause info, t = s.faultedWith cause info ∧ ∀ n, runFor n t = (.fault cause info, t)

/-- Rule R212: a step takes exactly the fault whose check comes first, and none if no check raises. -/
def Obligations.StepTakesTheFirstFault : Prop :=
  ∀ s : State, s.run = .running →
    (∀ cause info, firstFault s = some (cause, info) →
      step s = .next (s.faultedWith cause info)) ∧
    (firstFault s = none → ∃ t, step s = .next t ∧ t.run ≠ .faulted)

/-- Rules R21 and R203: the first register operand above 7 that an instruction accesses is the fault
`RegisterOutOfRange` with that byte, and an operand it does not access is never checked. -/
def Obligations.RegisterFaultExactlyOnAccess : Prop :=
  ∀ (i : Instr) (s : State),
    (∀ x : Byte, (accessedOperands s i).find? (fun a => decide (7 < a.toNat)) = some x →
      exec i s = .next (s.faultedWith .registerOutOfRange x.toNat)) ∧
    ((∀ a ∈ accessedOperands s i, a.toNat ≤ 7) →
      ∀ t f, exec i s = .next t → s.run = .running → t.run = .faulted → t.faultRecord = some f →
        f.cause ≠ .registerOutOfRange)

/-- Rule R204: `StackOutOfRange` is raised by exactly these instructions at exactly these values of `SP`,
once their register operand is in range; its info is that value. -/
def Obligations.StackFaultExactlyAtTheEnds : Prop :=
  ∀ (i : Instr) (s : State) (info : Nat), s.run = .running →
    (exec i s = .next (s.faultedWith .stackOutOfRange info) ↔
      (∀ a ∈ accessedOperands s i, a.toNat ≤ 7) ∧
      (((∃ a, i = .push a ∨ i = .call a) ∧ s.sp = 0 ∧ info = 0) ∨
        ((∃ a, i = .pop a ∧ s.popBase a = 255) ∨ (i = .ret ∧ s.sp = 255)) ∧ info = 255))

/-- Rule R51: the two operations of the memory interface, range check included. A read after a write to the
same address gives the byte written, and a write changes nothing else. -/
def Obligations.EveryAccessIsRangeChecked : Prop :=
  ∀ (addr : Nat) (v : Byte) (s : State),
    (255 < addr →
      memRead addr s = .error { cause := .memoryOutOfRange, info := addr } ∧
      memWrite addr v s = .error { cause := .memoryOutOfRange, info := addr }) ∧
    (addr ≤ 255 →
      memRead addr s = .ok (s.mem.read addr) ∧
      ∃ t, memWrite addr v s = .ok t ∧ t.mem.read addr = v ∧ MemKeptExcept s t addr ∧
        t = { s with mem := t.mem })

/-- Rule R107: `MemoryOutOfRange` is taken by a step exactly when its opcode or operand fetch leaves memory,
whatever the opcode and the unknown-opcode policy, with the first address that is not there as info. -/
def Obligations.MemoryFaultExactlyAtFetch : Prop :=
  ∀ (s t : State) (info : Nat), step s = .next t →
    (t = s.faultedWith .memoryOutOfRange info ↔
      (255 < s.pc.toNat ∧ info = s.pc.toNat) ∨
      (s.pc.toNat ≤ 255 ∧ s.opcodeAtPc ≠ 0x01 ∧ 255 < s.pc.toNat + s.opcodeAtPc.toNat / 64 ∧ info = 256))

/-- Rule R206: the ALU raises `UnsupportedOperation` for an operation it does not have, and no
step of any program takes that fault. -/
def Obligations.UnsupportedOperationIsUnreachable : Prop :=
  (∀ (tag : Nat) (dest src : Fin 8) (s : State),
    aluApply (.other tag) dest src s = .error { cause := .unsupportedOperation, info := tag }) ∧
  ∀ (s t : State) (f : FaultRecord), step s = .next t → t.run = .faulted → t.faultRecord = some f →
    f.cause ≠ .unsupportedOperation

/-- An instruction the assembly syntax can write never takes `RegisterOutOfRange` (rules R21, R74 and R81). -/
def Obligations.WellFormedNeverRegisterFaults : Prop :=
  ∀ (i : Instr) (s t : State) (f : FaultRecord), i.wellFormed = true → s.run = .running →
    exec i s = .next t → t.run = .faulted → t.faultRecord = some f → f.cause ≠ .registerOutOfRange

/-! ## The instructions

Each statement gives the whole rule: the encoding, the faults in their order, the effect with its frame,
and the fetch fault near the top of memory. -/

/-- Rule R103, HLT: only the run state changes, at every `pc` inside memory, 255 included. -/
def Obligations.HltStopsTheCore : Prop :=
  (∀ rest : List Byte, decode (0x01 :: rest) = .ok (.hlt, rest)) ∧
  (∀ s : State, exec .hlt s = .next { s with run := .halted }) ∧
  ∀ s : State, s.run = .running → s.pc.toNat ≤ 255 → s.opcodeAtPc = 0x01 →
    step s = .next { s with run := .halted }

/-- Rule R121, LDI. Under `ALIASED` a write of R6 or R7 is a write of `FL` or `SP`. -/
def Obligations.LdiLoadsTheImmediate : Prop :=
  (∀ (a b : Byte) (rest : List Byte), decode (0x82 :: a :: b :: rest) = .ok (.ldi a b, rest)) ∧
  (∀ (a b : Byte) (s : State), 7 < a.toNat →
    exec (.ldi a b) s = .next (s.faultedWith .registerOutOfRange a.toNat)) ∧
  (∀ (a b : Byte) (s : State) (ha : a.toNat < 8), ∃ t, exec (.ldi a b) s = .next t ∧
    t.reg ⟨a.toNat, ha⟩ = b ∧ t.pc = s.pc + 3 ∧
    RegsKeptExcept s t ⟨a.toNat, ha⟩ ∧
    t.sp = (if s.regAlias = .aliased ∧ a = 7 then b else s.sp) ∧
    t.fl = (if s.regAlias = .aliased ∧ a = 6 then b else s.fl) ∧
    t.out = s.out ∧ MemKept s t ∧ ControlKept s t) ∧
  OperandFetchFaultsFrom 0x82 254

/-- Rule R122, PRN. -/
def Obligations.PrnEmitsTheRegister : Prop :=
  (∀ (a : Byte) (rest : List Byte), decode (0x47 :: a :: rest) = .ok (.prn a, rest)) ∧
  (∀ (a : Byte) (s : State), 7 < a.toNat →
    exec (.prn a) s = .next (s.faultedWith .registerOutOfRange a.toNat)) ∧
  (∀ (a : Byte) (s : State) (ha : a.toNat < 8), ∃ t, exec (.prn a) s = .next t ∧
    t.out = s.out ++ [s.reg ⟨a.toNat, ha⟩] ∧ t.pc = s.pc + 2 ∧
    RegsKept s t ∧ t.sp = s.sp ∧ t.fl = s.fl ∧ MemKept s t ∧ ControlKept s t) ∧
  OperandFetchFaultsFrom 0x47 255

/-- Rule R142, ADD. Under `ALIASED` a write of R6 or R7 is a write of `FL` or `SP`. -/
def Obligations.AddWritesTheSumModulo256 : Prop :=
  (∀ (a b : Byte) (rest : List Byte), decode (0xA0 :: a :: b :: rest) = .ok (.add a b, rest)) ∧
  (∀ (a b : Byte) (s : State), 7 < a.toNat →
    exec (.add a b) s = .next (s.faultedWith .registerOutOfRange a.toNat)) ∧
  (∀ (a b : Byte) (s : State), a.toNat < 8 → 7 < b.toNat →
    exec (.add a b) s = .next (s.faultedWith .registerOutOfRange b.toNat)) ∧
  (∀ (a b : Byte) (s : State) (ha : a.toNat < 8) (hb : b.toNat < 8), ∃ t, exec (.add a b) s = .next t ∧
    (t.reg ⟨a.toNat, ha⟩).toNat = ((s.reg ⟨a.toNat, ha⟩).toNat + (s.reg ⟨b.toNat, hb⟩).toNat) % 256 ∧
    t.pc = s.pc + 3 ∧
    RegsKeptExcept s t ⟨a.toNat, ha⟩ ∧
    t.sp = (if s.regAlias = .aliased ∧ a = 7 then t.reg ⟨a.toNat, ha⟩ else s.sp) ∧
    t.fl = (if s.regAlias = .aliased ∧ a = 6 then t.reg ⟨a.toNat, ha⟩ else s.fl) ∧
    t.out = s.out ∧ MemKept s t ∧ ControlKept s t) ∧
  OperandFetchFaultsFrom 0xA0 254

/-- Rule R143, MUL. Under `ALIASED` a write of R6 or R7 is a write of `FL` or `SP`. -/
def Obligations.MulWritesTheProductModulo256 : Prop :=
  (∀ (a b : Byte) (rest : List Byte), decode (0xA2 :: a :: b :: rest) = .ok (.mul a b, rest)) ∧
  (∀ (a b : Byte) (s : State), 7 < a.toNat →
    exec (.mul a b) s = .next (s.faultedWith .registerOutOfRange a.toNat)) ∧
  (∀ (a b : Byte) (s : State), a.toNat < 8 → 7 < b.toNat →
    exec (.mul a b) s = .next (s.faultedWith .registerOutOfRange b.toNat)) ∧
  (∀ (a b : Byte) (s : State) (ha : a.toNat < 8) (hb : b.toNat < 8), ∃ t, exec (.mul a b) s = .next t ∧
    (t.reg ⟨a.toNat, ha⟩).toNat = ((s.reg ⟨a.toNat, ha⟩).toNat * (s.reg ⟨b.toNat, hb⟩).toNat) % 256 ∧
    t.pc = s.pc + 3 ∧
    RegsKeptExcept s t ⟨a.toNat, ha⟩ ∧
    t.sp = (if s.regAlias = .aliased ∧ a = 7 then t.reg ⟨a.toNat, ha⟩ else s.sp) ∧
    t.fl = (if s.regAlias = .aliased ∧ a = 6 then t.reg ⟨a.toNat, ha⟩ else s.fl) ∧
    t.out = s.out ∧ MemKept s t ∧ ControlKept s t) ∧
  OperandFetchFaultsFrom 0xA2 254

/-- Rule R144, CMP: all of `FL` is written, and no general register but R6 under `ALIASED`, which is `FL`. -/
def Obligations.CmpWritesTheWholeFlagsRegister : Prop :=
  (∀ (a b : Byte) (rest : List Byte), decode (0xA7 :: a :: b :: rest) = .ok (.cmp a b, rest)) ∧
  (∀ (a b : Byte) (s : State), 7 < a.toNat →
    exec (.cmp a b) s = .next (s.faultedWith .registerOutOfRange a.toNat)) ∧
  (∀ (a b : Byte) (s : State), a.toNat < 8 → 7 < b.toNat →
    exec (.cmp a b) s = .next (s.faultedWith .registerOutOfRange b.toNat)) ∧
  (∀ (a b : Byte) (s : State) (ha : a.toNat < 8) (hb : b.toNat < 8), ∃ t, exec (.cmp a b) s = .next t ∧
    ((s.reg ⟨a.toNat, ha⟩).toNat = (s.reg ⟨b.toNat, hb⟩).toNat → t.fl = 0x01) ∧
    ((s.reg ⟨a.toNat, ha⟩).toNat > (s.reg ⟨b.toNat, hb⟩).toNat → t.fl = 0x02) ∧
    ((s.reg ⟨a.toNat, ha⟩).toNat < (s.reg ⟨b.toNat, hb⟩).toNat → t.fl = 0x04) ∧
    t.pc = s.pc + 3 ∧
    (∀ k : Fin 8, t.reg k = if s.regAlias = .aliased ∧ k = 6 then t.fl else s.reg k) ∧
    t.sp = s.sp ∧ t.out = s.out ∧ MemKept s t ∧ ControlKept s t) ∧
  OperandFetchFaultsFrom 0xA7 254

/-- Rule R161, PUSH: the one byte stored is at the decremented `SP`, and the register is read after `SP`
is written. -/
def Obligations.PushStoresBelowTheStackPointer : Prop :=
  (∀ (a : Byte) (rest : List Byte), decode (0x45 :: a :: rest) = .ok (.push a, rest)) ∧
  (∀ (a : Byte) (s : State), 7 < a.toNat →
    exec (.push a) s = .next (s.faultedWith .registerOutOfRange a.toNat)) ∧
  (∀ (a : Byte) (s : State), a.toNat < 8 → s.sp = 0 →
    exec (.push a) s = .next (s.faultedWith .stackOutOfRange 0)) ∧
  (∀ (a : Byte) (s : State) (ha : a.toNat < 8), s.sp ≠ 0 → ∃ t, exec (.push a) s = .next t ∧
    t.sp = s.sp - 1 ∧
    t.mem.read (s.sp - 1).toNat =
      (if s.regAlias = .aliased ∧ a = 7 then s.sp - 1 else s.reg ⟨a.toNat, ha⟩) ∧
    MemKeptExcept s t (s.sp - 1).toNat ∧
    t.pc = s.pc + 2 ∧
    (∀ k : Fin 8, t.reg k = if s.regAlias = .aliased ∧ k = 7 then s.sp - 1 else s.reg k) ∧
    t.fl = s.fl ∧ t.out = s.out ∧ ControlKept s t) ∧
  OperandFetchFaultsFrom 0x45 255

/-- Rule R162, POP: the register is written before `SP` is incremented, so POP R7 under `ALIASED` leaves
the popped byte plus one; the popped cell keeps its value. -/
def Obligations.PopReadsAtTheStackPointer : Prop :=
  (∀ (a : Byte) (rest : List Byte), decode (0x46 :: a :: rest) = .ok (.pop a, rest)) ∧
  (∀ (a : Byte) (s : State), 7 < a.toNat →
    exec (.pop a) s = .next (s.faultedWith .registerOutOfRange a.toNat)) ∧
  (∀ (a : Byte) (s : State), a.toNat < 8 →
    (if s.regAlias = .aliased ∧ a = 7 then s.mem.read s.sp.toNat else s.sp) = 255 →
    exec (.pop a) s = .next (s.faultedWith .stackOutOfRange 255)) ∧
  (∀ (a : Byte) (s : State) (ha : a.toNat < 8),
    (if s.regAlias = .aliased ∧ a = 7 then s.mem.read s.sp.toNat else s.sp) ≠ 255 →
    ∃ t, exec (.pop a) s = .next t ∧
      t.sp = (if s.regAlias = .aliased ∧ a = 7 then s.mem.read s.sp.toNat else s.sp) + 1 ∧
      t.reg ⟨a.toNat, ha⟩ =
        (if s.regAlias = .aliased ∧ a = 7 then s.mem.read s.sp.toNat + 1 else s.mem.read s.sp.toNat) ∧
      (∀ k : Fin 8, k ≠ ⟨a.toNat, ha⟩ →
        t.reg k = if s.regAlias = .aliased ∧ k = 7 then s.sp + 1 else s.reg k) ∧
      t.fl = (if s.regAlias = .aliased ∧ a = 6 then s.mem.read s.sp.toNat else s.fl) ∧
      t.pc = s.pc + 2 ∧ t.out = s.out ∧ MemKept s t ∧ ControlKept s t) ∧
  OperandFetchFaultsFrom 0x46 255

/-- Rule R181, CALL: index, stack and return address are checked in that order, the return address is
the one byte stored, and the target is read after the push. -/
def Obligations.CallPushesTheReturnAddress : Prop :=
  (∀ (a : Byte) (rest : List Byte), decode (0x50 :: a :: rest) = .ok (.call a, rest)) ∧
  (∀ (a : Byte) (s : State), 7 < a.toNat →
    exec (.call a) s = .next (s.faultedWith .registerOutOfRange a.toNat)) ∧
  (∀ (a : Byte) (s : State), a.toNat < 8 → s.sp = 0 →
    exec (.call a) s = .next (s.faultedWith .stackOutOfRange 0)) ∧
  (∀ (a : Byte) (s : State), a.toNat < 8 → s.sp ≠ 0 → 255 < s.pc.toNat + 2 →
    exec (.call a) s = .next (s.faultedWith .returnAddressOutOfRange (s.pc.toNat + 2))) ∧
  (∀ (a : Byte) (s : State) (ha : a.toNat < 8), s.sp ≠ 0 → s.pc.toNat + 2 ≤ 255 →
    ∃ t, exec (.call a) s = .next t ∧
      t.sp = s.sp - 1 ∧
      (t.mem.read (s.sp - 1).toNat).toNat = s.pc.toNat + 2 ∧
      MemKeptExcept s t (s.sp - 1).toNat ∧
      t.pc.toNat = (if s.regAlias = .aliased ∧ a = 7 then s.sp - 1 else s.reg ⟨a.toNat, ha⟩).toNat ∧
      (∀ k : Fin 8, t.reg k = if s.regAlias = .aliased ∧ k = 7 then s.sp - 1 else s.reg k) ∧
      t.fl = s.fl ∧ t.out = s.out ∧ ControlKept s t) ∧
  OperandFetchFaultsFrom 0x50 255

/-- Rule R182, RET: it reads no operand, so it runs at address 255 too. -/
def Obligations.RetJumpsToThePoppedByte : Prop :=
  (∀ rest : List Byte, decode (0x11 :: rest) = .ok (.ret, rest)) ∧
  (∀ s : State, s.sp = 255 → exec .ret s = .next (s.faultedWith .stackOutOfRange 255)) ∧
  (∀ s : State, s.sp ≠ 255 → ∃ t, exec .ret s = .next t ∧
    t.pc.toNat = (s.mem.read s.sp.toNat).toNat ∧ t.sp = s.sp + 1 ∧
    (∀ k : Fin 8, t.reg k = if s.regAlias = .aliased ∧ k = 7 then s.sp + 1 else s.reg k) ∧
    t.fl = s.fl ∧ t.out = s.out ∧ MemKept s t ∧ ControlKept s t) ∧
  ∀ s : State, s.run = .running → s.pc.toNat ≤ 255 → s.opcodeAtPc = 0x11 → step s = exec .ret s

/-- Rule R183, JMP. -/
def Obligations.JmpGoesToTheRegister : Prop :=
  (∀ (a : Byte) (rest : List Byte), decode (0x54 :: a :: rest) = .ok (.jmp a, rest)) ∧
  (∀ (a : Byte) (s : State), 7 < a.toNat →
    exec (.jmp a) s = .next (s.faultedWith .registerOutOfRange a.toNat)) ∧
  (∀ (a : Byte) (s : State) (ha : a.toNat < 8), ∃ t, exec (.jmp a) s = .next t ∧
    t.pc.toNat = (s.reg ⟨a.toNat, ha⟩).toNat ∧
    RegsKept s t ∧ t.sp = s.sp ∧ t.fl = s.fl ∧ t.out = s.out ∧ MemKept s t ∧ ControlKept s t) ∧
  OperandFetchFaultsFrom 0x54 255

/-- Rule R184, JEQ: taken exactly when `FL` is 0x01; an untaken JEQ checks no index. -/
def Obligations.JeqBranchesExactlyOnEqual : Prop :=
  (∀ (a : Byte) (rest : List Byte), decode (0x55 :: a :: rest) = .ok (.jeq a, rest)) ∧
  (∀ (a : Byte) (s : State), s.fl = 0x01 → 7 < a.toNat →
    exec (.jeq a) s = .next (s.faultedWith .registerOutOfRange a.toNat)) ∧
  (∀ (a : Byte) (s : State) (ha : a.toNat < 8), s.fl = 0x01 → ∃ t, exec (.jeq a) s = .next t ∧
    t.pc.toNat = (s.reg ⟨a.toNat, ha⟩).toNat ∧
    RegsKept s t ∧ t.sp = s.sp ∧ t.fl = s.fl ∧ t.out = s.out ∧ MemKept s t ∧ ControlKept s t) ∧
  (∀ (a : Byte) (s : State), s.fl ≠ 0x01 → ∃ t, exec (.jeq a) s = .next t ∧
    t.pc = s.pc + 2 ∧
    RegsKept s t ∧ t.sp = s.sp ∧ t.fl = s.fl ∧ t.out = s.out ∧ MemKept s t ∧ ControlKept s t) ∧
  OperandFetchFaultsFrom 0x55 255

/-! ## Pairs of instructions: the source's own properties -/

/-- The source's property in rule R121: what LDI loads, a following PRN of that register outputs. -/
def Obligations.LdiThenPrnOutputsTheValue : Prop :=
  ∀ (a v : Byte) (s t : State), a.toNat < 8 → exec (.ldi a v) s = .next t →
    ∃ u, exec (.prn a) t = .next u ∧ u.out = s.out ++ [v]

/-- The source's property in rule R162: PUSH then POP of one register both take their effect, without a fault,
and restore the register and `SP`, for every index, every `SP` in 1..255 and both values of `REG_ALIAS`. -/
def Obligations.PushThenPopRestores : Prop :=
  ∀ (a : Byte) (s : State), a.toNat < 8 → s.sp ≠ 0 →
    ∃ t u, exec (.push a) s = .next t ∧ exec (.pop a) t = .next u ∧
      ControlKept s t ∧ ControlKept s u ∧ t.pc = s.pc + 2 ∧ u.pc = s.pc + 4 ∧
      t.sp = s.sp - 1 ∧ u.sp = s.sp ∧ (∀ k : Fin 8, u.reg k = s.reg k) ∧ u.fl = s.fl ∧ u.out = s.out ∧
      MemKeptExcept s u (s.sp - 1).toNat

/-- The source's property in rule R182: a RET that finds `SP` and the top of the stack as the CALL left
them goes to the byte after the CALL, and `SP` is as before the CALL. -/
def Obligations.CallThenRetReturns : Prop :=
  ∀ (a : Byte) (s t u : State), a.toNat < 8 → s.sp ≠ 0 → s.pc.toNat + 2 ≤ 255 →
    exec (.call a) s = .next t → u.sp = t.sp → u.mem.read u.sp.toNat = t.mem.read t.sp.toNat →
      ∃ w, exec .ret u = .next w ∧ w.pc = s.pc + 2 ∧ w.sp = s.sp

/-- The source's property in rule R184: after a CMP, JEQ transfers control if the operands were equal and
falls through if they were not. -/
def Obligations.BranchTakenIffOperandsWereEqual : Prop :=
  ∀ (a b c : Byte) (s t : State) (ha : a.toNat < 8) (hb : b.toNat < 8) (hc : c.toNat < 8),
    exec (.cmp a b) s = .next t →
      ∃ u, exec (.jeq c) t = .next u ∧
        (s.reg ⟨a.toNat, ha⟩ = s.reg ⟨b.toNat, hb⟩ → u.pc.toNat = (t.reg ⟨c.toNat, hc⟩).toNat) ∧
        (s.reg ⟨a.toNat, ha⟩ ≠ s.reg ⟨b.toNat, hb⟩ → u.pc = t.pc + 2)

/-- A byte that PUSH or CALL stores is seen by the fetch of the very next step (rule R58): where the address
stored to is `k` bytes into what that step fetches from, the byte there is the one stored, be it the opcode
(`k = 0`) or an operand. PUSH stores the register its operand names and goes on at `pc + 2`; CALL stores
`pc + 2` and goes on at the register. A stored HLT byte stops the core. -/
def Obligations.PushedByteIsFetchedNext : Prop :=
  ∀ (s : State) (i : Fin 8), s.run = .running → s.pc.toNat + 2 ≤ 255 → s.sp ≠ 0 →
    (s.byteAtPc 1).toNat = i.val →
    (s.opcodeAtPc = 0x45 → ∃ t, step s = .next t ∧ t.run = .running ∧ t.pc.toNat = s.pc.toNat + 2 ∧
      ∀ k : Nat, s.pc.toNat + 2 + k = (s.sp - 1).toNat →
        (codeBytes t)[k]? = some (if s.regAlias = .aliased ∧ i = 7 then s.sp - 1 else s.reg i) ∧
        (k = 0 →
          t.opcodeAtPc = (if s.regAlias = .aliased ∧ i = 7 then s.sp - 1 else s.reg i) ∧
          (t.opcodeAtPc = 0x01 → step t = .next { t with run := .halted }))) ∧
    (s.opcodeAtPc = 0x50 → ∃ t, step s = .next t ∧ t.run = .running ∧
      t.pc.toNat = (if s.regAlias = .aliased ∧ i = 7 then s.sp - 1 else s.reg i).toNat ∧
      ∀ k : Nat, (if s.regAlias = .aliased ∧ i = 7 then s.sp - 1 else s.reg i).toNat + k = (s.sp - 1).toNat →
        (codeBytes t)[k]? = some (BitVec.ofNat 8 (s.pc.toNat + 2)) ∧
        (k = 0 →
          t.opcodeAtPc.toNat = s.pc.toNat + 2 ∧
          (t.opcodeAtPc = 0x01 → step t = .next { t with run := .halted })))

/-! ## Whole-machine rules -/

/-- `HALTED` is entered by HLT alone, which changes nothing else (rules R29, R103 and R221). -/
def Obligations.OnlyHltEntersHalted : Prop :=
  ∀ s t : State, step s = .next t → t.run = .halted →
    s.pc.toNat ≤ 255 ∧ s.opcodeAtPc = 0x01 ∧ t = { s with run := .halted }

/-- Rule R31: only PRN appends to `OUT`, one byte at its end, and no instruction reads it: a run is the
same whatever was emitted before. -/
def Obligations.OutputIsAppendedByPrnAndNeverRead : Prop :=
  (∀ s t : State, step s = .next t →
    t.out = s.out ∨
      (s.opcodeAtPc = 0x47 ∧ ∃ i : Fin 8, (s.byteAtPc 1).toNat = i.val ∧ t.out = s.out ++ [s.reg i])) ∧
  ∀ (s : State) (o : List Byte),
    step (s.withEarlierOutput o) = mapNext (fun t => t.withEarlierOutput o) (step s)

/-- Only PUSH and CALL write memory, one cell, at the decremented `SP` (rules R53 and R57). -/
def Obligations.OnlyPushAndCallWriteMemory : Prop :=
  ∀ (s t : State) (x : Nat), step s = .next t → t.mem.read x ≠ s.mem.read x →
    s.opcodeAtPc ∈ ([0x45, 0x50] : List Byte) ∧ s.sp ≠ 0 ∧ x = (s.sp - 1).toNat

/-- Under `DECOUPLED` the register file, `SP` and `FL` are separate cells (rules R20, R23, R25 and R26): a
general register changes only as the destination of LDI, ADD, MUL or POP, `SP` only by PUSH, POP, CALL
or RET, and `FL` only by CMP. -/
def Obligations.DecoupledCellsAreSeparate : Prop :=
  ∀ s t : State, step s = .next t → s.regAlias = .decoupled →
    (∀ k : Fin 8, t.reg k ≠ s.reg k →
      s.opcodeAtPc ∈ ([0x82, 0xA0, 0xA2, 0x46] : List Byte) ∧ (s.byteAtPc 1).toNat = k.val) ∧
    (t.sp ≠ s.sp → s.opcodeAtPc ∈ ([0x45, 0x46, 0x50, 0x11] : List Byte)) ∧
    (t.fl ≠ s.fl → s.opcodeAtPc = 0xA7)

/-- Under `ALIASED` a write through one name is seen by the next instruction through the other
(rule R24): LDI R7 moves the stack, PUSH is seen by PRN R7, LDI R6 decides JEQ, and CMP is seen by PRN R6. -/
def Obligations.AliasedNamesShareACell : Prop :=
  ∀ (s t : State), s.regAlias = .aliased →
    (∀ v a : Byte, exec (.ldi 7 v) s = .next t → ∀ ha : a.toNat < 8, v ≠ 0 →
      ∃ u, exec (.push a) t = .next u ∧ u.sp = v - 1 ∧
        u.mem.read (v - 1).toNat = (if a = 7 then v - 1 else t.reg ⟨a.toNat, ha⟩) ∧
        MemKeptExcept t u (v - 1).toNat) ∧
    (∀ a : Byte, exec (.push a) s = .next t → a.toNat < 8 → s.sp ≠ 0 →
      ∃ u, exec (.prn 7) t = .next u ∧ u.out = s.out ++ [s.sp - 1]) ∧
    (∀ v c : Byte, exec (.ldi 6 v) s = .next t → ∀ hc : c.toNat < 8,
      ∃ u, exec (.jeq c) t = .next u ∧
        (v = 0x01 → u.pc.toNat = (t.reg ⟨c.toNat, hc⟩).toNat) ∧ (v ≠ 0x01 → u.pc = t.pc + 2)) ∧
    (∀ a b : Byte, exec (.cmp a b) s = .next t → a.toNat < 8 → b.toNat < 8 →
      ∃ u, exec (.prn 6) t = .next u ∧ u.out = s.out ++ [t.fl] ∧
        (t.fl = 0x01 ∨ t.fl = 0x02 ∨ t.fl = 0x04))

/-- Under `DECOUPLED`, `FL` is read by JEQ alone (rule R26): a step of any other opcode from a state that
differs in `FL` ends in the same state, but for `FL` where the step does not write it. -/
def Obligations.FlagsAreReadByJeqAlone : Prop :=
  ∀ (s t : State) (x : Byte), s.regAlias = .decoupled → s.opcodeAtPc ≠ 0x55 → step s = .next t →
    step (s.setFl x) = .next (t.setFl x) ∨
      (s.opcodeAtPc = 0xA7 ∧ t.run ≠ .faulted ∧ step (s.setFl x) = .next t)

/-- No step changes a parameter (rule R35). -/
def Obligations.ParametersAreFixedForARun : Prop :=
  ∀ s t : State, step s = .next t → t.config = s.config

/-- Rule R104's run through zero bytes: under `SKIP` it advances one byte a step and ends at the fetch
from address 256. -/
def Obligations.SkipRunsThroughZerosToTheEnd : Prop :=
  ∀ s : State, s.run = .running → s.unknownOpcodePolicy = .skip → s.pc.toNat ≤ 256 →
    (∀ x : Nat, s.pc.toNat ≤ x → x ≤ 255 → s.mem.read x = 0x00) →
      runFor (257 - s.pc.toNat) s =
        (.fault .memoryOutOfRange 256,
          { s with
            pc := 256
            run := .faulted
            faultRecord := some { cause := .memoryOutOfRange, info := 256, fpc := 256 } })

/-! ## The invariant -/

/-- Every step keeps the invariant: `pc` at most 258, a legal `FL` under `DECOUPLED`, a fault record exactly
in `FAULTED` with a cause, info and `fpc` the table of rule R200 allows (rules R26, R28, R30, R200 and R210);
and the canonical form of memory, which is the model's own choice of representation (log entry 3). -/
def Obligations.StepKeepsTheInvariant : Prop :=
  ∀ s t : State, s.Inv → step s = .next t → t.Inv

/-- Every reset state meets the invariant, whatever the parameters and the draw; so does `State.reset`. Of it,
the canonical form of memory and what the session remembers are the model's own (log entries 3 and 2). -/
def Obligations.ResetMeetsTheInvariant : Prop :=
  State.reset.Inv ∧ ∀ (c : Config) (d : ResetDraw), (HostSession.afterReset c d).Inv

/-- Whatever the host does, `run` included, and in any order, to a session that meets the invariant leaves one
that does. Of the invariant, the canonical form of memory (log entry 3) and what the session remembers of
`load` (log entry 2) are the model's own; a `run` that does not end leaves no session (log entry 13). -/
def Obligations.HostOperationsKeepTheInvariant : Prop :=
  ∀ (ops : List HostOp) (h g : HostSession), h.Inv → HostDoesAll ops h g → g.Inv

/-- Equal reads make equal memories: the canonical form has one list for each memory. -/
def Obligations.CanonicalMemoryIsUnique : Prop :=
  ∀ m n : Memory, m.wf → n.wf → (∀ x : Nat, m.read x = n.read x) → m = n

/-! ## Reset and the host interface -/

/-- Rules R32 and R230: the value of every piece of state after reset, for both values of `REG_ALIAS` and
of `RESET_FILL`; `State.reset` is the reset with the defaults of rule R6, whatever the draw. Zero for `R[0]`..`R[5]`, memory and
`FL` is the spec's decisions D4 and D5 (log entries 3 and 6). -/
def Obligations.ResetPutsEveryValue : Prop :=
  (∀ (c : Config) (d : ResetDraw),
    (resetWith c d).pc = 0 ∧ (resetWith c d).sp = 0xF4 ∧ (resetWith c d).reg 7 = 0xF4 ∧
    (resetWith c d).fl = 0x00 ∧ (resetWith c d).reg 6 = 0x00 ∧
    (∀ k : Fin 6, (resetWith c d).reg ⟨k.val, by omega⟩ =
      if c.resetFill = .zero then 0x00 else d.regs[k]) ∧
    (∀ x : Fin 256, (resetWith c d).mem.read x.val =
      if c.resetFill = .zero then 0x00 else d.cells[x]) ∧
    (resetWith c d).run = .running ∧ (resetWith c d).faultRecord = none ∧ (resetWith c d).out = [] ∧
    (resetWith c d).config = c) ∧
  ∀ d : ResetDraw, resetWith Config.default d = State.reset

/-- Reset keeps nothing of the state before it but the parameters, in any run state, and no other operation of
the host, `run` included, moves a stopped core (rules R105, R231, R233 and R240). That `step` and `run` asked of a
stopped core are answered at all, by a refusal that changes nothing, is the model's own choice (log entry 13). -/
def Obligations.OnlyResetLeavesAStoppedCore : Prop :=
  (∀ (d : ResetDraw) (g h : HostSession), g.core.config = h.core.config → hostReset d g = hostReset d h) ∧
  (∀ (d : ResetDraw) (h : HostSession), (hostReset d h).core.run = .running) ∧
  ∀ (ops : List HostOp) (h g : HostSession), h.Inv → h.core.run ≠ .running →
    (∀ d, HostOp.reset d ∉ ops) → (HostDoesAll ops h g ↔ g = h)

/-- Rule R234: what `load` writes, and that a sequence that is too long writes nothing and faults. -/
def Obligations.LoadWritesTheImageOrNothing : Prop :=
  ∀ (bytes : List Byte) (s : State),
    (bytes.length ≤ 256 →
      (loadCore bytes s).1 = .ok ∧
      (∀ (x : Nat) (h : x < bytes.length), (loadCore bytes s).2.mem.read x = bytes[x]) ∧
      (∀ x : Nat, bytes.length ≤ x → (loadCore bytes s).2.mem.read x = s.mem.read x) ∧
      (loadCore bytes s).2 = { s with mem := (loadCore bytes s).2.mem }) ∧
    (256 < bytes.length →
      loadCore bytes s =
        (.fault .programTooLarge bytes.length,
          { s with
            run := .faulted
            faultRecord := some { cause := .programTooLarge, info := bytes.length, fpc := 0 } }))

/-- Rule R233: `load` is taken once after a reset and before the first step. After any operations without a
reset, it is refused and changes nothing if one of them was a `load` or took a step (a `run` takes one unless
`MAX_STEPS` is 0); if none did, the session is still as the reset left it and `load` acts. A step without a
load runs what reset left, under `RESET_FILL = ZERO` the unknown opcode 0x00. -/
def Obligations.LoadIsAllowedOnceAfterReset : Prop :=
  (∀ (c : Config) (d : ResetDraw) (bytes : List Byte),
    hostLoad bytes (.afterReset c d) =
      ((loadCore bytes (resetWith c d)).1, { core := (loadCore bytes (resetWith c d)).2, loadOpen := false })) ∧
  (∀ (c : Config) (d : ResetDraw) (bytes : List Byte) (ops : List HostOp) (g : HostSession),
    (∀ e, HostOp.reset e ∉ ops) → HostDoesAll ops (.afterReset c d) g →
      (((∃ image, HostOp.load image ∈ ops) ∨ HostOp.step ∈ ops ∨ (HostOp.run ∈ ops ∧ c.maxSteps ≠ some 0)) →
        hostLoad bytes g = (.refused, g)) ∧
      (¬((∃ image, HostOp.load image ∈ ops) ∨ HostOp.step ∈ ops ∨ (HostOp.run ∈ ops ∧ c.maxSteps ≠ some 0)) →
        g = .afterReset c d)) ∧
  ∀ (c : Config) (d : ResetDraw), c.resetFill = .zero →
    step (resetWith c d) = execUnknown 0x00 (resetWith c d)

/-- Rule R240, `step`: in `RUNNING` it takes one step, and the host gets the new run state. Outside `RUNNING`,
where rule R240 does not allow it and does not say what the host gets, that it is refused and changes nothing
is the model's own choice (log entry 13). -/
def Obligations.HostStepAnswersTheNewRunState : Prop :=
  ∀ h : HostSession,
    (h.core.run = .running →
      ∃ t, step h.core = .next t ∧ hostStep h = (.runState t.run, { core := t, loadOpen := false })) ∧
    (h.core.run ≠ .running → hostStep h = (.refused, h))

/-- Rules R105 and R241: a run that ends has one end, and its result is `Halted` or the cause and info of
the fault record its final state holds. -/
def Obligations.RunReportsHowItEnded : Prop :=
  (∀ (s t : State) (r : RunResult), RunEnds s r t →
    (t.run = .halted ∧ r = .halted) ∨
    (t.run = .faulted ∧ ∃ f, t.faultRecord = some f ∧ r = .fault f.cause f.info)) ∧
  ∀ (s t u : State) (r q : RunResult), RunEnds s r t → RunEnds s q u → r = q ∧ t = u

/-- Rules R106 and R240: a run stopped by its step limit goes on where it stopped, and a longer limit
changes nothing of a run that has ended. -/
def Obligations.RunsComposeAcrossTheStepLimit : Prop :=
  ∀ (m n : Nat) (s : State),
    runFor (m + n) s =
      (if (runFor m s).1 = .stepLimit then runFor n (runFor m s).2 else runFor m s) ∧
    (s.Inv → (runFor m s).1 = .stepLimit → (runFor m s).2.run = .running)

/-- A word placed for the host's question runs as the next instruction, from every state whose `pc`
leaves room for it (the model's own `withFetchWord`, log entry 5). -/
def Obligations.PlacedWordRunsNext : Prop :=
  ∀ (s : State) (nbits w : Nat) (i : Instr), s.pc.toNat ≤ 253 → decodeTableWord nbits w = some i →
    step (s.withFetchWord nbits w) = exec i (s.withFetchWord nbits w)

/-- The host's `run` (rules R106 and R240): refused unless the core is `RUNNING`; with `MAX_STEPS` it always
answers, after steps until the core stops or that many steps, and reports which; without it, it answers exactly
if the core stops. It ends the right to `load` exactly if it takes a step, so with `MAX_STEPS = 0` it changes
nothing (rule R233). The session and the relation are the model's own (log entries 2 and 13). -/
def Obligations.HostRunStepsToTheEndOrTheLimit : Prop :=
  ∀ h : HostSession, h.core.Inv →
    (h.core.run ≠ .running → ∀ reply g, HostRun h reply g ↔ reply = .refused ∧ g = h) ∧
    (h.core.run = .running → h.core.maxSteps = some 0 →
      ∀ reply g, HostRun h reply g ↔ reply = .runResult .stepLimit ∧ g = h) ∧
    (h.core.run = .running → ∀ k, h.core.maxSteps = some k →
      (∃ reply g, HostRun h reply g) ∧
      ∀ reply g, HostRun h reply g ↔
        ∃ n, n ≤ k ∧ StepsTo n h.core g.core ∧ (g.loadOpen = true ↔ h.loadOpen = true ∧ n = 0) ∧
          ((∃ r, g.core.termination = some r ∧ reply = .runResult r) ∨
            (n = k ∧ g.core.run = .running ∧ reply = .runResult .stepLimit))) ∧
    (h.core.run = .running → h.core.maxSteps = none →
      ∀ reply g, HostRun h reply g ↔
        ∃ n r, StepsTo n h.core g.core ∧ g.loadOpen = false ∧
          g.core.termination = some r ∧ reply = .runResult r)
end

