-- ==== Sys2Proof/Laws/Memory.lean ====
section
/-! SUPPORT. Memory: a read after a write, the canonical form kept by every operation, and equal reads
meaning equal memories. -/

namespace Sys2Proof.Machine
namespace Memory

theorem wf_nil : Memory.wf [] := by simp [Memory.wf]

theorem wf_tail {c : Host.Cell} {m : Memory} (h : Memory.wf (c :: m)) : m.wf :=
  ⟨h.1.tail, fun d hd => h.2 d (List.mem_cons_of_mem _ hd)⟩

/-! ## Reads -/

theorem read_of_forall_ne {m : Memory} {x : Nat} (h : ∀ c ∈ m, c.1 ≠ x) :
    m.read x = Config.unlistedByte := by
  induction m with
  | nil => rfl
  | cons c m ih =>
    rw [Memory.read, if_neg (h c List.mem_cons_self)]
    exact ih fun d hd => h d (List.mem_cons_of_mem _ hd)

theorem read_erase_self (m : Memory) (a : Nat) : (m.erase a).read a = Config.unlistedByte :=
  read_of_forall_ne fun c hc => by simpa using (List.mem_filter.mp hc).2

theorem read_erase_ne {x a : Nat} (m : Memory) (h : x ≠ a) : (m.erase a).read x = m.read x := by
  induction m with
  | nil => rfl
  | cons c m ih =>
    by_cases hc : c.1 = a
    · have hx : c.1 ≠ x := fun e => h (e.symm.trans hc)
      simpa [Memory.erase, Memory.read, hc, hx, h.symm] using ih
    · by_cases hx : c.1 = x
      · simp [Memory.erase, Memory.read, hx, h]
      · simpa [Memory.erase, Memory.read, hc, hx] using ih

theorem read_insert_ne {x a : Nat} (m : Memory) (v : Byte) (h : x ≠ a) :
    (m.insert a v).read x = m.read x := by
  induction m with
  | nil => simp [Memory.insert, Memory.read, h.symm]
  | cons c m ih =>
    by_cases hc : a < c.1
    · simp [Memory.insert, Memory.read, hc, h.symm]
    · simp [Memory.insert, Memory.read, hc, ih]

theorem read_insert_self {m : Memory} {a : Nat} (v : Byte) (h : ∀ c ∈ m, c.1 ≠ a) :
    (m.insert a v).read a = v := by
  induction m with
  | nil => simp [Memory.insert, Memory.read]
  | cons c m ih =>
    by_cases hc : a < c.1
    · simp [Memory.insert, Memory.read, hc]
    · rw [Memory.insert, if_neg hc, Memory.read, if_neg (h c List.mem_cons_self)]
      exact ih fun d hd => h d (List.mem_cons_of_mem _ hd)

theorem erase_ne (m : Memory) (a : Nat) : ∀ c ∈ m.erase a, c.1 ≠ a := fun c hc => by
  simpa using (List.mem_filter.mp hc).2

@[simp] theorem read_write_self (m : Memory) (a : Nat) (v : Byte) : (m.write a v).read a = v := by
  unfold Memory.write
  split
  · next h => rw [read_erase_self, h]
  · exact read_insert_self v (erase_ne m a)

theorem read_write_ne {x a : Nat} (m : Memory) (v : Byte) (h : x ≠ a) :
    (m.write a v).read x = m.read x := by
  unfold Memory.write
  split
  · exact read_erase_ne m h
  · rw [read_insert_ne _ v h, read_erase_ne m h]

theorem read_write (m : Memory) (a : Nat) (v : Byte) (x : Nat) :
    (m.write a v).read x = if x = a then v else m.read x := by
  split
  · next h => rw [h, read_write_self]
  · next h => exact read_write_ne m v h

theorem read_writeList (m : Memory) (a : Nat) (vs : List Byte) (x : Nat) :
    (m.writeList a vs).read x = if h : a ≤ x ∧ x < a + vs.length then vs[x - a] else m.read x := by
  induction vs generalizing m a with
  | nil => rw [dif_neg (by simp)]; rfl
  | cons v vs ih =>
    rw [Memory.writeList, ih, read_write]
    by_cases hx : x = a
    · subst hx
      simp
    · by_cases h : a + 1 ≤ x ∧ x < a + 1 + vs.length
      · rw [dif_pos h, dif_pos (by simp only [List.length_cons]; omega)]
        have e : x - a = x - (a + 1) + 1 := by omega
        simp [e]
      · rw [dif_neg h, if_neg hx, dif_neg (by simp only [List.length_cons]; omega)]

/-! ## The canonical form -/

theorem wf_erase {m : Memory} (h : m.wf) (a : Nat) : (m.erase a).wf :=
  ⟨h.1.filter _, fun c hc => h.2 c (List.mem_filter.mp hc).1⟩

theorem mem_insert {m : Memory} {a : Nat} {v : Byte} {c : Host.Cell} (h : c ∈ m.insert a v) :
    c = (a, v) ∨ c ∈ m := by
  induction m with
  | nil => simpa [Memory.insert] using h
  | cons d m ih =>
    unfold Memory.insert at h
    split at h
    · simpa using h
    · rcases List.mem_cons.mp h with rfl | h
      · exact .inr List.mem_cons_self
      · exact (ih h).imp_right (List.mem_cons_of_mem _)

theorem wf_insert {m : Memory} {a : Nat} {v : Byte} (h : m.wf) (hne : ∀ c ∈ m, c.1 ≠ a)
    (ha : a < 256) (hv : v ≠ 0) : (m.insert a v).wf := by
  refine ⟨?_, fun c hc => ?_⟩
  · induction m with
    | nil => simp [Memory.insert]
    | cons d m ih =>
      unfold Memory.insert
      split
      · next hd =>
        refine List.Pairwise.cons (fun c hc => ?_) h.1
        rcases List.mem_cons.mp hc with rfl | hc
        · exact hd
        · exact hd.trans (List.rel_of_pairwise_cons h.1 hc)
      · next hd =>
        refine List.Pairwise.cons (fun c hc => ?_)
          (ih (wf_tail h) fun c hc => hne c (List.mem_cons_of_mem _ hc))
        rcases mem_insert hc with rfl | hc
        · exact lt_of_le_of_ne (not_lt.mp hd) (hne d List.mem_cons_self)
        · exact List.rel_of_pairwise_cons h.1 hc
  · rcases mem_insert hc with rfl | hc
    · exact ⟨ha, hv⟩
    · exact h.2 c hc

theorem wf_write {m : Memory} {a : Nat} (h : m.wf) (ha : a < 256) (v : Byte) : (m.write a v).wf := by
  unfold Memory.write
  split
  · exact wf_erase h a
  · next hv => exact wf_insert (wf_erase h a) (erase_ne m a) ha hv

theorem wf_writeList {m : Memory} (h : m.wf) (a : Nat) (vs : List Byte) (ha : a + vs.length ≤ 256) :
    (m.writeList a vs).wf := by
  induction vs generalizing m a with
  | nil => exact h
  | cons v vs ih =>
    rw [List.length_cons] at ha
    exact ih (wf_write h (by omega) v) (a + 1) (by omega)

theorem wf_resetMemory (c : Config) (d : ResetDraw) : (resetMemory c d).wf := by
  unfold resetMemory
  split
  · exact wf_nil
  · exact wf_writeList wf_nil 0 _ (by simp)

theorem wf_reset : State.reset.mem.wf := wf_nil

/-- In a canonical memory nothing is listed below the head. -/
theorem read_of_lt_head {c : Host.Cell} {m : Memory} (h : Memory.wf (c :: m)) {x : Nat} (hx : x < c.1) :
    Memory.read (c :: m) x = Config.unlistedByte := by
  refine read_of_forall_ne fun d hd => ?_
  rcases List.mem_cons.mp hd with rfl | hd
  · exact ne_of_gt hx
  · exact ne_of_gt (hx.trans (List.rel_of_pairwise_cons h.1 hd))

theorem read_head (c : Host.Cell) (m : Memory) : Memory.read (c :: m) c.1 = c.2 := by
  simp [Memory.read]

end Memory
end Sys2Proof.Machine
end

