-- ==== Sys2Proof/Laws/State.lean ====
section
/-! SUPPORT. One lemma for each field under each update of the state, and the registers read back. -/

namespace Sys2Proof.Machine
namespace State

variable (s : State) (i : Fin 8) (v : Byte) (p : PcWord) (k : Nat) (r : RunState) (f : Raise) (m : Memory)

/-! ## setReg -/

@[simp] theorem setReg_special : (s.setReg i v).special = s.special := rfl
@[simp] theorem setReg_pc : (s.setReg i v).pc = s.pc := rfl
@[simp] theorem setReg_mem : (s.setReg i v).mem = s.mem := rfl
@[simp] theorem setReg_run : (s.setReg i v).run = s.run := rfl
@[simp] theorem setReg_faultRecord : (s.setReg i v).faultRecord = s.faultRecord := rfl
@[simp] theorem setReg_out : (s.setReg i v).out = s.out := rfl
@[simp] theorem setReg_unknownOpcodePolicy : (s.setReg i v).unknownOpcodePolicy = s.unknownOpcodePolicy := rfl
@[simp] theorem setReg_regAlias : (s.setReg i v).regAlias = s.regAlias := rfl
@[simp] theorem setReg_config : (s.setReg i v).config = s.config := rfl

theorem reg_setReg (j : Fin 8) : (s.setReg i v).reg j = if j = i then v else s.reg j := by
  simp only [reg, setReg, Fin.getElem_fin, Vector.getElem_set, Fin.ext_iff, eq_comm]

@[simp] theorem reg_setReg_self : (s.setReg i v).reg i = v := by simp [reg_setReg]

theorem sp_setReg : (s.setReg i v).sp = if s.regAlias = .aliased ∧ i = 7 then v else s.sp := by
  unfold sp regAlias
  cases h : s.special <;> simp [h, reg_setReg, eq_comm]

theorem fl_setReg : (s.setReg i v).fl = if s.regAlias = .aliased ∧ i = 6 then v else s.fl := by
  unfold fl regAlias
  cases h : s.special <;> simp [h, reg_setReg, eq_comm]

/-! ## setSp -/

@[simp] theorem setSp_pc : (s.setSp v).pc = s.pc := by unfold setSp; split <;> rfl
@[simp] theorem setSp_mem : (s.setSp v).mem = s.mem := by unfold setSp; split <;> rfl
@[simp] theorem setSp_run : (s.setSp v).run = s.run := by unfold setSp; split <;> rfl
@[simp] theorem setSp_faultRecord : (s.setSp v).faultRecord = s.faultRecord := by
  unfold setSp; split <;> rfl
@[simp] theorem setSp_out : (s.setSp v).out = s.out := by unfold setSp; split <;> rfl
@[simp] theorem setSp_unknownOpcodePolicy : (s.setSp v).unknownOpcodePolicy = s.unknownOpcodePolicy := by
  unfold setSp; split <;> rfl

@[simp] theorem setSp_regAlias : (s.setSp v).regAlias = s.regAlias := by
  unfold setSp regAlias
  cases h : s.special <;> simp [h]

@[simp] theorem setSp_config : (s.setSp v).config = s.config := by
  have h := s.setSp_regAlias v
  unfold config
  rw [h]
  unfold setSp
  split <;> rfl

@[simp] theorem sp_setSp : (s.setSp v).sp = v := by
  unfold setSp sp
  cases h : s.special <;> simp [h]

@[simp] theorem fl_setSp : (s.setSp v).fl = s.fl := by
  unfold setSp fl
  cases h : s.special <;> simp [h, reg_setReg]

theorem reg_setSp (j : Fin 8) :
    (s.setSp v).reg j = if s.regAlias = .aliased ∧ j = 7 then v else s.reg j := by
  unfold setSp regAlias
  cases s.special with
  | decoupled sp fl => simp [reg]
  | aliased => simp [reg_setReg]

/-! ## setFl -/

@[simp] theorem setFl_pc : (s.setFl v).pc = s.pc := by unfold setFl; split <;> rfl
@[simp] theorem setFl_mem : (s.setFl v).mem = s.mem := by unfold setFl; split <;> rfl
@[simp] theorem setFl_run : (s.setFl v).run = s.run := by unfold setFl; split <;> rfl
@[simp] theorem setFl_faultRecord : (s.setFl v).faultRecord = s.faultRecord := by
  unfold setFl; split <;> rfl
@[simp] theorem setFl_out : (s.setFl v).out = s.out := by unfold setFl; split <;> rfl
@[simp] theorem setFl_unknownOpcodePolicy : (s.setFl v).unknownOpcodePolicy = s.unknownOpcodePolicy := by
  unfold setFl; split <;> rfl

@[simp] theorem setFl_regAlias : (s.setFl v).regAlias = s.regAlias := by
  unfold setFl regAlias
  cases h : s.special <;> simp [h]

@[simp] theorem setFl_config : (s.setFl v).config = s.config := by
  have h := s.setFl_regAlias v
  unfold config
  rw [h]
  unfold setFl
  split <;> rfl

@[simp] theorem fl_setFl : (s.setFl v).fl = v := by
  unfold setFl fl
  cases h : s.special <;> simp [h]

@[simp] theorem sp_setFl : (s.setFl v).sp = s.sp := by
  unfold setFl sp
  cases h : s.special <;> simp [h, reg_setReg]

theorem reg_setFl (j : Fin 8) :
    (s.setFl v).reg j = if s.regAlias = .aliased ∧ j = 6 then v else s.reg j := by
  unfold setFl regAlias
  cases s.special with
  | decoupled sp fl => simp [reg]
  | aliased => simp [reg_setReg]

/-! ## One cell, two names (rule R24) -/

theorem sp_of_aliased {s : State} (h : s.regAlias = .aliased) : s.sp = s.reg 7 := by
  unfold regAlias at h
  unfold sp
  cases hs : s.special <;> simp [hs] at h ⊢

theorem fl_of_aliased {s : State} (h : s.regAlias = .aliased) : s.fl = s.reg 6 := by
  unfold regAlias at h
  unfold fl
  cases hs : s.special <;> simp [hs] at h ⊢

/-! ## setPc and advance -/

@[simp] theorem setPc_pc : (s.setPc p).pc = p := rfl
@[simp] theorem setPc_mem : (s.setPc p).mem = s.mem := rfl
@[simp] theorem setPc_run : (s.setPc p).run = s.run := rfl
@[simp] theorem setPc_faultRecord : (s.setPc p).faultRecord = s.faultRecord := rfl
@[simp] theorem setPc_out : (s.setPc p).out = s.out := rfl
@[simp] theorem setPc_unknownOpcodePolicy : (s.setPc p).unknownOpcodePolicy = s.unknownOpcodePolicy := rfl
@[simp] theorem setPc_regAlias : (s.setPc p).regAlias = s.regAlias := rfl
@[simp] theorem setPc_config : (s.setPc p).config = s.config := rfl
@[simp] theorem reg_setPc : (s.setPc p).reg i = s.reg i := rfl
@[simp] theorem sp_setPc : (s.setPc p).sp = s.sp := rfl
@[simp] theorem fl_setPc : (s.setPc p).fl = s.fl := rfl

@[simp] theorem advance_pc : (s.advance k).pc = s.pc + BitVec.ofNat 9 k := rfl
@[simp] theorem advance_mem : (s.advance k).mem = s.mem := rfl
@[simp] theorem advance_run : (s.advance k).run = s.run := rfl
@[simp] theorem advance_faultRecord : (s.advance k).faultRecord = s.faultRecord := rfl
@[simp] theorem advance_out : (s.advance k).out = s.out := rfl
@[simp] theorem advance_unknownOpcodePolicy : (s.advance k).unknownOpcodePolicy = s.unknownOpcodePolicy := rfl
@[simp] theorem advance_regAlias : (s.advance k).regAlias = s.regAlias := rfl
@[simp] theorem advance_config : (s.advance k).config = s.config := rfl
@[simp] theorem reg_advance : (s.advance k).reg i = s.reg i := rfl
@[simp] theorem sp_advance : (s.advance k).sp = s.sp := rfl
@[simp] theorem fl_advance : (s.advance k).fl = s.fl := rfl

/-- An advance from a `pc` inside memory does not wrap (rule R28). -/
theorem advance_pc_toNat (h : s.pc.toNat ≤ 255) (hk : k ≤ 3) :
    (s.advance k).pc.toNat = s.pc.toNat + k := by
  rw [advance_pc, BitVec.toNat_add, BitVec.toNat_ofNat]
  omega

/-! ## emit, setRun and raise -/

@[simp] theorem emit_pc : (s.emit v).pc = s.pc := rfl
@[simp] theorem emit_mem : (s.emit v).mem = s.mem := rfl
@[simp] theorem emit_run : (s.emit v).run = s.run := rfl
@[simp] theorem emit_faultRecord : (s.emit v).faultRecord = s.faultRecord := rfl
@[simp] theorem emit_out : (s.emit v).out = s.out ++ [v] := rfl
@[simp] theorem emit_regAlias : (s.emit v).regAlias = s.regAlias := rfl
@[simp] theorem emit_config : (s.emit v).config = s.config := rfl
@[simp] theorem reg_emit : (s.emit v).reg i = s.reg i := rfl
@[simp] theorem sp_emit : (s.emit v).sp = s.sp := rfl
@[simp] theorem fl_emit : (s.emit v).fl = s.fl := rfl

@[simp] theorem setRun_pc : (s.setRun r).pc = s.pc := rfl
@[simp] theorem setRun_mem : (s.setRun r).mem = s.mem := rfl
@[simp] theorem setRun_run : (s.setRun r).run = r := rfl
@[simp] theorem setRun_faultRecord : (s.setRun r).faultRecord = s.faultRecord := rfl
@[simp] theorem setRun_out : (s.setRun r).out = s.out := rfl
@[simp] theorem setRun_regAlias : (s.setRun r).regAlias = s.regAlias := rfl
@[simp] theorem setRun_config : (s.setRun r).config = s.config := rfl
@[simp] theorem reg_setRun : (s.setRun r).reg i = s.reg i := rfl
@[simp] theorem sp_setRun : (s.setRun r).sp = s.sp := rfl
@[simp] theorem fl_setRun : (s.setRun r).fl = s.fl := rfl


@[simp] theorem raise_pc : (s.raise f).pc = s.pc := rfl
@[simp] theorem raise_mem : (s.raise f).mem = s.mem := rfl
@[simp] theorem raise_run : (s.raise f).run = .faulted := rfl
@[simp] theorem raise_faultRecord : (s.raise f).faultRecord = some ⟨f.cause, f.info, s.pc⟩ := rfl
@[simp] theorem raise_out : (s.raise f).out = s.out := rfl
@[simp] theorem raise_regAlias : (s.raise f).regAlias = s.regAlias := rfl
@[simp] theorem raise_config : (s.raise f).config = s.config := rfl
@[simp] theorem reg_raise : (s.raise f).reg i = s.reg i := rfl
@[simp] theorem sp_raise : (s.raise f).sp = s.sp := rfl
@[simp] theorem fl_raise : (s.raise f).fl = s.fl := rfl

/-! ## setMem -/

@[simp] theorem setMem_pc : (s.setMem m).pc = s.pc := rfl
@[simp] theorem setMem_mem : (s.setMem m).mem = m := rfl
@[simp] theorem setMem_run : (s.setMem m).run = s.run := rfl
@[simp] theorem setMem_faultRecord : (s.setMem m).faultRecord = s.faultRecord := rfl
@[simp] theorem setMem_out : (s.setMem m).out = s.out := rfl
@[simp] theorem setMem_unknownOpcodePolicy : (s.setMem m).unknownOpcodePolicy = s.unknownOpcodePolicy := rfl
@[simp] theorem setMem_regAlias : (s.setMem m).regAlias = s.regAlias := rfl
@[simp] theorem setMem_config : (s.setMem m).config = s.config := rfl
@[simp] theorem reg_setMem : (s.setMem m).reg i = s.reg i := rfl
@[simp] theorem sp_setMem : (s.setMem m).sp = s.sp := rfl
@[simp] theorem fl_setMem : (s.setMem m).fl = s.fl := rfl

end State
end Sys2Proof.Machine
end

