-- ==== Sys2Proof/Laws/Ops.lean ====
section
/-! SUPPORT. One lemma for each shared operation: when it answers, with what, and when it raises. -/

namespace Sys2Proof.Machine

/-! ## Checked computations -/

@[simp] theorem ok_bind {α β : Type} (x : α) (f : α → Checked β) :
    ((Except.ok x : Checked α) >>= f) = f x := rfl

@[simp] theorem error_bind {α β : Type} (r : Raise) (f : α → Checked β) :
    ((Except.error r : Checked α) >>= f) = Except.error r := rfl

@[simp] theorem pure_eq_ok {α : Type} (x : α) : (pure x : Checked α) = Except.ok x := rfl

theorem bind_eq_ok {α β : Type} {c : Checked α} {f : α → Checked β} {y : β} (h : c >>= f = .ok y) :
    ∃ x, c = .ok x ∧ f x = .ok y := by
  cases c with
  | error r => simp at h
  | ok x => exact ⟨x, rfl, h⟩

theorem bind_eq_error {α β : Type} {c : Checked α} {f : α → Checked β} {r : Raise}
    (h : c >>= f = .error r) : c = .error r ∨ ∃ x, c = .ok x ∧ f x = .error r := by
  cases c with
  | error q => exact .inl (by simpa using h)
  | ok x => exact .inr ⟨x, rfl, h⟩

/-! ## finish -/

@[simp] theorem finish_ok (s t : State) : finish s (.ok t) = .next t := rfl

@[simp] theorem finish_error (s : State) (r : Raise) : finish s (.error r) = .next (s.raise r) := rfl

/-- Every handler answers a next state (93_implementation_defined.md: no behaviour is stuck). -/
theorem finish_next (s : State) (body : Checked State) : ∃ t, finish s body = .next t := by
  cases body <;> exact ⟨_, rfl⟩

theorem finish_cases {s t : State} {body : Checked State} (h : finish s body = .next t) :
    body = .ok t ∨ ∃ r, body = .error r ∧ t = s.raise r := by
  cases body with
  | ok u => exact .inl (by simpa using h)
  | error r => exact .inr ⟨r, rfl, by simpa [eq_comm] using h⟩

/-! ## Operands -/

theorem regIndex_of_lt {a : Byte} (h : a.toNat < 8) : regIndex a = .ok ⟨a.toNat, h⟩ := dif_pos h

theorem regIndex_of_ge {a : Byte} (h : 8 ≤ a.toNat) :
    regIndex a = .error ⟨.registerOutOfRange, a.toNat⟩ := dif_neg (not_lt.mpr h)

theorem regIndex_eq_ok {a : Byte} {i : Fin 8} (h : regIndex a = .ok i) : i.val = a.toNat := by
  unfold regIndex at h
  split at h
  · cases h; rfl
  · cases h

theorem regIndex_eq_error {a : Byte} {r : Raise} (h : regIndex a = .error r) :
    8 ≤ a.toNat ∧ r = ⟨.registerOutOfRange, a.toNat⟩ := by
  unfold regIndex at h
  split at h
  · cases h
  · next hn => exact ⟨not_lt.mp hn, by cases h; rfl⟩

@[simp] theorem zext9_toNat (v : Byte) : (zext9 v).toNat = v.toNat := by
  rw [zext9, BitVec.toNat_ofNat]
  have := v.isLt
  omega

theorem returnAddress_of_le {s : State} (h : s.pc.toNat ≤ 253) :
    returnAddress s = .ok (BitVec.ofNat 8 (s.pc.toNat + 2)) := if_neg (by simp only [Config.memSize]; omega)

theorem returnAddress_of_gt {s : State} (h : 253 < s.pc.toNat) :
    returnAddress s = .error ⟨.returnAddressOutOfRange, s.pc.toNat + 2⟩ :=
  if_pos (by simp only [Config.memSize]; omega)

/-! ## Memory -/

theorem memRead_of_lt {a : Nat} (s : State) (h : a < 256) : memRead a s = .ok (s.mem.read a) :=
  if_neg (not_le.mpr h)

theorem memRead_of_ge {a : Nat} (s : State) (h : 256 ≤ a) :
    memRead a s = .error ⟨.memoryOutOfRange, a⟩ := if_pos h

theorem memWrite_of_lt {a : Nat} (v : Byte) (s : State) (h : a < 256) :
    memWrite a v s = .ok (s.setMem (s.mem.write a v)) := if_neg (not_le.mpr h)

theorem memWrite_of_ge {a : Nat} (v : Byte) (s : State) (h : 256 ≤ a) :
    memWrite a v s = .error ⟨.memoryOutOfRange, a⟩ := if_pos h

/-- A stack access is always inside memory (rule R52). -/
@[simp] theorem memRead_sp (s t : State) : memRead s.sp.toNat t = .ok (t.mem.read s.sp.toNat) :=
  memRead_of_lt t s.sp.isLt

@[simp] theorem memWrite_sp (v : Byte) (s t : State) :
    memWrite s.sp.toNat v t = .ok (t.setMem (t.mem.write s.sp.toNat v)) :=
  memWrite_of_lt v t s.sp.isLt

/-! ## Stack moves -/

theorem spDown_of_ne {s : State} (h : s.sp ≠ 0) : spDown s = .ok (s.setSp (s.sp - 1)) := if_neg h

theorem spDown_of_eq {s : State} (h : s.sp = 0) : spDown s = .error ⟨.stackOutOfRange, 0⟩ := if_pos h

theorem spUp_of_ne {s : State} (h : s.sp ≠ 255) : spUp s = .ok (s.setSp (s.sp + 1)) := if_neg h

theorem spUp_of_eq {s : State} (h : s.sp = 255) : spUp s = .error ⟨.stackOutOfRange, 255⟩ := if_pos h

theorem spDown_eq_ok {s t : State} (h : spDown s = .ok t) : s.sp ≠ 0 ∧ t = s.setSp (s.sp - 1) := by
  unfold spDown at h
  split at h
  · cases h
  · next hn => exact ⟨hn, by cases h; rfl⟩

theorem spUp_eq_ok {s t : State} (h : spUp s = .ok t) : s.sp ≠ 255 ∧ t = s.setSp (s.sp + 1) := by
  unfold spUp at h
  split at h
  · cases h
  · next hn => exact ⟨hn, by cases h; rfl⟩

theorem toNat_sub_one {v : Byte} (h : v ≠ 0) : (v - 1).toNat = v.toNat - 1 := by
  have := v.isLt
  have : v.toNat ≠ 0 := fun e => h (BitVec.eq_of_toNat_eq e)
  rw [BitVec.toNat_sub]
  simp
  omega

theorem toNat_add_one {v : Byte} (h : v ≠ 255) : (v + 1).toNat = v.toNat + 1 := by
  have := v.isLt
  have : v.toNat ≠ 255 := fun e => h (BitVec.eq_of_toNat_eq e)
  rw [BitVec.toNat_add]
  simp
  omega

/-- A decremented `SP` is never 255, so a pop after a push does not fault. -/
theorem sub_one_ne_top {v : Byte} (h : v ≠ 0) : v - 1 ≠ 255 := fun e => by
  have ht := toNat_sub_one h
  have : (255 : Byte).toNat = 255 := rfl
  have := v.isLt
  have : v.toNat ≠ 0 := fun e => h (BitVec.eq_of_toNat_eq e)
  rw [e] at ht
  omega

theorem sub_one_add_one (v : Byte) : v - 1 + 1 = v := BitVec.sub_add_cancel v 1

/-! ## Arithmetic and flags -/

theorem addBytes_toNat (x y : Byte) : (addBytes x y).toNat = (x.toNat + y.toNat) % 256 :=
  BitVec.toNat_ofNat _ _

theorem mulBytes_toNat (x y : Byte) : (mulBytes x y).toNat = (x.toNat * y.toNat) % 256 :=
  BitVec.toNat_ofNat _ _

theorem compareFlags_cases (x y : Byte) :
    (x = y ∧ compareFlags x y = flagE) ∨ (y.toNat < x.toNat ∧ compareFlags x y = flagG) ∨
      (x.toNat < y.toNat ∧ compareFlags x y = flagL) := by
  unfold compareFlags
  by_cases h : x = y
  · exact .inl ⟨h, if_pos h⟩
  · have : x.toNat ≠ y.toNat := fun e => h (BitVec.eq_of_toNat_eq e)
    rw [if_neg h]
    by_cases hg : y.toNat < x.toNat
    · exact .inr (.inl ⟨hg, if_pos hg⟩)
    · exact .inr (.inr ⟨by omega, if_neg hg⟩)

end Sys2Proof.Machine
end

