-- ==== Sys2Proof/Laws/Fetch.lean ====
section
/-! SUPPORT. What a fetch answers, and the decoder on known bytes. -/

namespace Sys2Proof.Machine

/-- Operand reads that stay inside memory. -/
theorem readBytes_of_le {s : State} {n a : Nat} (h : a + n ≤ 256) :
    readBytes s a n = .ok ((List.range n).map fun k => s.mem.read (a + k)) := by
  induction n generalizing a with
  | zero => rfl
  | succ n ih =>
    rw [readBytes, memRead_of_lt s (by omega), ih (by omega)]
    simp [List.range_succ_eq_map, Function.comp_def, Nat.add_assoc, Nat.add_comm 1]

/-- Operand reads that leave memory stop at its first missing address (rule R212). -/
theorem readBytes_of_gt {s : State} {n a : Nat} (ha : a ≤ 256) (h : 256 < a + n) :
    readBytes s a n = .error ⟨.memoryOutOfRange, 256⟩ := by
  induction n generalizing a with
  | zero => omega
  | succ n ih =>
    rw [readBytes]
    by_cases he : a = 256
    · rw [he, memRead_of_ge s le_rfl]
      rfl
    · rw [memRead_of_lt s (by omega), ih (by omega) (by omega)]
      rfl

/-- The four ways a fetch ends (rules R100 and R212). -/
theorem fetch_of_pc_gt {s : State} (h : 255 < s.pc.toNat) :
    fetch s = .error ⟨.memoryOutOfRange, s.pc.toNat⟩ := by
  rw [fetch, memRead_of_ge s (by omega)]
  rfl

theorem fetch_of_hlt {s : State} (h : s.pc.toNat ≤ 255) (ho : s.mem.read s.pc.toNat = Opcode.hlt) :
    fetch s = .ok (Opcode.hlt, []) := by
  rw [fetch, memRead_of_lt s (by omega), ok_bind, if_pos ho, ho]
  rfl

theorem fetch_of_operands_missing {s : State} (h : s.pc.toNat ≤ 255)
    (ho : s.mem.read s.pc.toNat ≠ Opcode.hlt)
    (hn : 255 < s.pc.toNat + operandCount (s.mem.read s.pc.toNat)) :
    fetch s = .error ⟨.memoryOutOfRange, 256⟩ := by
  rw [fetch, memRead_of_lt s (by omega), ok_bind, if_neg ho, readBytes_of_gt (by omega) (by omega)]
  rfl

theorem fetch_of_operands_present {s : State} (h : s.pc.toNat ≤ 255)
    (ho : s.mem.read s.pc.toNat ≠ Opcode.hlt)
    (hn : s.pc.toNat + operandCount (s.mem.read s.pc.toNat) ≤ 255) :
    fetch s = .ok (s.mem.read s.pc.toNat,
      (List.range (operandCount (s.mem.read s.pc.toNat))).map fun k => s.mem.read (s.pc.toNat + 1 + k)) := by
  rw [fetch, memRead_of_lt s (by omega), ok_bind, if_neg ho, readBytes_of_le (by omega)]
  rfl

theorem operandCount_le (op : Byte) : operandCount op ≤ 3 := by
  have := op.isLt
  rw [operandCount, Nat.shiftRight_eq_div_pow]
  omega

theorem length_codeBytes (s : State) : (codeBytes s).length = 256 - s.pc.toNat := by simp [codeBytes]

@[simp] theorem step_of_running {s : State} (h : s.run = .running) :
    step s = stepRunning s := by rw [step, h]

end Sys2Proof.Machine
end

