-- ==== Sys2Proof/Laws/Step.lean ====
section
/-! SUPPORT. The step said once: from a `RUNNING` state it faults at the fetch, runs one decoded
instruction, or meets an unknown opcode. -/

namespace Sys2Proof.Machine

theorem operandCount_eq (op : Byte) : operandCount op = op.toNat / 64 := Nat.shiftRight_eq_div_pow _ _

@[simp] theorem registerOperand_eq_true (a : Byte) : registerOperand a = true ↔ a.toNat < 8 := by
  rw [registerOperand, decide_eq_true_eq]

/-- The bytes at `pc` are the encoding of `i`. -/
def StandsAtPc (s : State) (i : Instr) : Prop :=
  encode i = (List.range (encode i).length).map s.byteAtPc

theorem byteAtPc_zero (s : State) : s.byteAtPc 0 = s.opcodeAtPc := rfl

/-- The decoder on a first byte and what follows it. -/
theorem decode_cons (op : Byte) (rest : List Byte) :
    decode (op :: rest) =
      if op = Opcode.hlt then .ok (.hlt, rest)
      else if rest.length < operandCount op then .error (.truncated (rest.length + 1))
      else
        match decodeRow op (rest.take (operandCount op)) with
        | some i => .ok (i, rest.drop (operandCount op))
        | none => .error (.unknownOpcode op) := rfl

theorem decodeF0_eq_some {op : Byte} {i : Instr} (h : decodeF0 op = some i) : encode i = [op] := by
  unfold decodeF0 at h
  repeat' split at h
  all_goals first | (cases h; subst_vars; rfl) | cases h

theorem decodeF1_eq_some {op a : Byte} {i : Instr} (h : decodeF1 op a = some i) : encode i = [op, a] := by
  unfold decodeF1 at h
  repeat' split at h
  all_goals first | (cases h; subst_vars; rfl) | cases h

theorem decodeF2_eq_some {op a b : Byte} {i : Instr} (h : decodeF2 op a b = some i) :
    encode i = [op, a, b] := by
  unfold decodeF2 at h
  repeat' split at h
  all_goals first | (cases h; subst_vars; rfl) | cases h

/-- A row's instruction encodes to the bytes it was read from (rules R73 and R75). -/
theorem decodeRow_eq_some {op : Byte} {opnds : List Byte} {i : Instr} (h : decodeRow op opnds = some i) :
    encode i = op :: opnds := by
  match opnds, h with
  | [], h => exact decodeF0_eq_some h
  | [a], h => exact decodeF1_eq_some h
  | [a, b], h => exact decodeF2_eq_some h
  | _ :: _ :: _ :: _, h => cases h

/-- An instruction's own bytes are read back as it (rules R75 and R77). -/
theorem decodeRow_encode {op : Byte} {opnds : List Byte} {i : Instr} (h : encode i = op :: opnds) :
    decodeRow op opnds = some i := by
  cases i <;> (simp only [encode, List.cons.injEq] at h; obtain ⟨rfl, rfl⟩ := h; rfl)

/-- Every row of the table is in the decoder of its format (rules R74 and R75). -/
theorem row_of_mem_table {op : Byte} (h : op ∈ Opcode.table) :
    (operandCount op = 0 ∧ decodeF0 op ≠ none) ∨ (operandCount op = 1 ∧ ∀ a, decodeF1 op a ≠ none) ∨
      (operandCount op = 2 ∧ ∀ a b, decodeF2 op a b ≠ none) := by
  simp only [Opcode.table, List.mem_cons, List.not_mem_nil, or_false] at h
  rcases h with rfl | rfl | rfl | rfl | rfl | rfl | rfl | rfl | rfl | rfl | rfl | rfl
  iterate 2 exact .inl ⟨by decide, nofun⟩
  iterate 6 exact .inr (.inl ⟨by decide, nofun⟩)
  all_goals exact .inr (.inr ⟨by decide, nofun⟩)

/-- With as many operand bytes as its bits 7:6 say, an opcode byte has no row exactly when it is
unknown (rule R76). -/
theorem decodeRow_eq_none_iff {op : Byte} {opnds : List Byte} (hn : opnds.length = operandCount op) :
    decodeRow op opnds = none ↔ op ∉ Opcode.table := by
  constructor
  · intro h hm
    rcases row_of_mem_table hm with ⟨hc, hr⟩ | ⟨hc, hr⟩ | ⟨hc, hr⟩ <;> rw [hc] at hn
    · obtain rfl := List.length_eq_zero_iff.mp hn
      exact hr h
    · obtain ⟨a, rfl⟩ := List.length_eq_one_iff.mp hn
      exact hr a h
    · obtain ⟨a, b, rfl⟩ := List.length_eq_two.mp hn
      exact hr a b h
  · intro h
    cases hd : decodeRow op opnds with
    | none => rfl
    | some i =>
      refine absurd ?_ h
      have he := decodeRow_eq_some hd
      cases i <;> (simp only [encode, List.cons.injEq] at he; rw [← he.1]; decide)

theorem operandBytes_eq (s : State) (n : Nat) :
    (List.range n).map (fun k => s.mem.read (s.pc.toNat + 1 + k)) =
      (List.range n).map (fun k => s.byteAtPc (k + 1)) :=
  List.map_congr_left fun k _ => by rw [State.byteAtPc, Nat.add_assoc, Nat.add_comm 1]

theorem stepRunning_of_row {s : State} {op : Byte} {opnds : List Byte} {i : Instr}
    (hf : fetch s = .ok (op, opnds)) (hd : decodeRow op opnds = some i) : stepRunning s = exec i s := by
  simp only [stepRunning, hf, hd]

theorem stepRunning_of_unknown {s : State} {op : Byte} {opnds : List Byte}
    (hf : fetch s = .ok (op, opnds)) (hd : decodeRow op opnds = none) :
    stepRunning s = execUnknown op s := by
  simp only [stepRunning, hf, hd]

theorem stepRunning_of_error {s : State} {r : Raise} (hf : fetch s = .error r) :
    stepRunning s = .next (s.raise r) := by
  simp only [stepRunning, hf]

/-- The step from a `RUNNING` state, by what is at `pc` (rules R100 and R107). -/
theorem step_cases {s : State} (h : s.run = .running) :
    (255 < s.pc.toNat ∧ step s = .next (s.raise ⟨.memoryOutOfRange, s.pc.toNat⟩)) ∨
    (s.pc.toNat ≤ 255 ∧ s.opcodeAtPc ≠ Opcode.hlt ∧ 255 < s.pc.toNat + operandCount s.opcodeAtPc ∧
      step s = .next (s.raise ⟨.memoryOutOfRange, 256⟩)) ∨
    (s.pc.toNat ≤ 255 ∧ s.pc.toNat + operandCount s.opcodeAtPc ≤ 255 ∧ ∃ i, StandsAtPc s i ∧
      step s = exec i s) ∨
    (s.pc.toNat ≤ 255 ∧ s.pc.toNat + operandCount s.opcodeAtPc ≤ 255 ∧ s.opcodeAtPc ∉ Opcode.table ∧
      step s = execUnknown s.opcodeAtPc s) := by
  rw [step_of_running h]
  by_cases hpc : 255 < s.pc.toNat
  · exact .inl ⟨hpc, stepRunning_of_error (fetch_of_pc_gt hpc)⟩
  refine .inr ?_
  rw [not_lt] at hpc
  by_cases ho : s.opcodeAtPc = Opcode.hlt
  · refine .inr (.inl ⟨hpc, by rw [ho]; exact hpc, .hlt, ?_,
      stepRunning_of_row (fetch_of_hlt hpc ho) rfl⟩)
    simp only [StandsAtPc, encode, List.length_singleton, List.range_one, List.map_cons, List.map_nil]
    rw [byteAtPc_zero, ho]
  by_cases hn : 255 < s.pc.toNat + operandCount s.opcodeAtPc
  · exact .inl ⟨hpc, ho, hn,
      stepRunning_of_error (fetch_of_operands_missing hpc ho hn)⟩
  refine .inr ?_
  rw [not_lt] at hn
  have hf : fetch s = .ok (s.opcodeAtPc,
      (List.range (operandCount s.opcodeAtPc)).map fun k => s.byteAtPc (k + 1)) := by
    rw [fetch_of_operands_present hpc ho hn, operandBytes_eq]
    rfl
  have hlen : ((List.range (operandCount s.opcodeAtPc)).map fun k => s.byteAtPc (k + 1)).length =
      operandCount s.opcodeAtPc := by simp
  cases hd : decodeRow s.opcodeAtPc
      ((List.range (operandCount s.opcodeAtPc)).map fun k => s.byteAtPc (k + 1)) with
  | none => exact .inr ⟨hpc, hn, (decodeRow_eq_none_iff hlen).mp hd, stepRunning_of_unknown hf hd⟩
  | some i =>
    refine .inl ⟨hpc, hn, i, ?_, stepRunning_of_row hf hd⟩
    have he := decodeRow_eq_some hd
    rw [StandsAtPc, he, List.length_cons, hlen, List.range_succ_eq_map]
    simp [byteAtPc_zero]

/-- Every instruction answers a next state, from every state. -/
theorem exec_next (i : Instr) (s : State) : ∃ t, exec i s = .next t := by
  cases i <;>
    simp only [exec, execHlt, execRet, execPush, execPop, execPrn, execCall, execJmp, execJeq, execLdi,
      execAdd, execMul, execCmp] <;>
    exact finish_next s _

theorem execUnknown_next (op : Byte) (s : State) : ∃ t, execUnknown op s = .next t := finish_next s _

theorem execUnknown_fault {s : State} (op : Byte) (h : s.unknownOpcodePolicy = .fault) :
    execUnknown op s = .next (s.raise ⟨.unknownOpcode, op.toNat⟩) := by
  simp only [execUnknown, h, finish_error]

theorem execUnknown_skip {s : State} (op : Byte) (h : s.unknownOpcodePolicy = .skip) :
    execUnknown op s = .next (s.advance 1) := by
  simp only [execUnknown, h, finish_ok]

end Sys2Proof.Machine
end

