-- ==== Sys2Proof/Laws/Exec.lean ====
section
/-! SUPPORT. Each meaning said once in the model's own operations: the state it ends in, or the fault it
takes. The statements cite these instead of unfolding a meaning. -/

namespace Sys2Proof.Machine

variable {a b : Byte} {s : State}

/-! ## A register operand that names no register (rule R203) -/

theorem exec_push_badIndex (h : 8 ≤ a.toNat) :
    exec (.push a) s = .next (s.raise ⟨.registerOutOfRange, a.toNat⟩) := by
  simp only [exec, execPush, regIndex_of_ge h, error_bind, finish_error]

theorem exec_pop_badIndex (h : 8 ≤ a.toNat) :
    exec (.pop a) s = .next (s.raise ⟨.registerOutOfRange, a.toNat⟩) := by
  simp only [exec, execPop, regIndex_of_ge h, error_bind, finish_error]

theorem exec_prn_badIndex (h : 8 ≤ a.toNat) :
    exec (.prn a) s = .next (s.raise ⟨.registerOutOfRange, a.toNat⟩) := by
  simp only [exec, execPrn, regIndex_of_ge h, error_bind, finish_error]

theorem exec_call_badIndex (h : 8 ≤ a.toNat) :
    exec (.call a) s = .next (s.raise ⟨.registerOutOfRange, a.toNat⟩) := by
  simp only [exec, execCall, regIndex_of_ge h, error_bind, finish_error]

theorem exec_jmp_badIndex (h : 8 ≤ a.toNat) :
    exec (.jmp a) s = .next (s.raise ⟨.registerOutOfRange, a.toNat⟩) := by
  simp only [exec, execJmp, regIndex_of_ge h, error_bind, finish_error]

theorem exec_jeq_badIndex (hf : s.fl = flagE) (h : 8 ≤ a.toNat) :
    exec (.jeq a) s = .next (s.raise ⟨.registerOutOfRange, a.toNat⟩) := by
  simp only [exec, execJeq, if_pos hf, regIndex_of_ge h, error_bind, finish_error]

theorem exec_ldi_badIndex (h : 8 ≤ a.toNat) :
    exec (.ldi a b) s = .next (s.raise ⟨.registerOutOfRange, a.toNat⟩) := by
  simp only [exec, execLdi, regIndex_of_ge h, error_bind, finish_error]

theorem aluBody_badFirst {op : AluOp} (h : 8 ≤ a.toNat) :
    aluBody op a b s = .error ⟨.registerOutOfRange, a.toNat⟩ := by
  simp only [aluBody, regIndex_of_ge h, error_bind]

theorem aluBody_badSecond {op : AluOp} (ha : a.toNat < 8) (h : 8 ≤ b.toNat) :
    aluBody op a b s = .error ⟨.registerOutOfRange, b.toNat⟩ := by
  simp only [aluBody, regIndex_of_lt ha, regIndex_of_ge h, ok_bind, error_bind]

theorem exec_add_badFirst (h : 8 ≤ a.toNat) :
    exec (.add a b) s = .next (s.raise ⟨.registerOutOfRange, a.toNat⟩) := by
  simp only [exec, execAdd, aluBody_badFirst h, finish_error]

theorem exec_add_badSecond (ha : a.toNat < 8) (h : 8 ≤ b.toNat) :
    exec (.add a b) s = .next (s.raise ⟨.registerOutOfRange, b.toNat⟩) := by
  simp only [exec, execAdd, aluBody_badSecond ha h, finish_error]

theorem exec_mul_badFirst (h : 8 ≤ a.toNat) :
    exec (.mul a b) s = .next (s.raise ⟨.registerOutOfRange, a.toNat⟩) := by
  simp only [exec, execMul, aluBody_badFirst h, finish_error]

theorem exec_mul_badSecond (ha : a.toNat < 8) (h : 8 ≤ b.toNat) :
    exec (.mul a b) s = .next (s.raise ⟨.registerOutOfRange, b.toNat⟩) := by
  simp only [exec, execMul, aluBody_badSecond ha h, finish_error]

theorem exec_cmp_badFirst (h : 8 ≤ a.toNat) :
    exec (.cmp a b) s = .next (s.raise ⟨.registerOutOfRange, a.toNat⟩) := by
  simp only [exec, execCmp, aluBody_badFirst h, finish_error]

theorem exec_cmp_badSecond (ha : a.toNat < 8) (h : 8 ≤ b.toNat) :
    exec (.cmp a b) s = .next (s.raise ⟨.registerOutOfRange, b.toNat⟩) := by
  simp only [exec, execCmp, aluBody_badSecond ha h, finish_error]

/-! ## Effects -/

theorem exec_hlt (s : State) : exec .hlt s = .next (s.setRun .halted) := rfl

theorem exec_ldi (b : Byte) (s : State) (ha : a.toNat < 8) :
    exec (.ldi a b) s = .next ((s.setReg ⟨a.toNat, ha⟩ b).advance 3) := by
  simp only [exec, execLdi, regIndex_of_lt ha, ok_bind, pure_eq_ok, finish_ok]

theorem exec_prn (s : State) (ha : a.toNat < 8) :
    exec (.prn a) s = .next ((s.emit (s.reg ⟨a.toNat, ha⟩)).advance 2) := by
  simp only [exec, execPrn, regIndex_of_lt ha, ok_bind, pure_eq_ok, finish_ok]

theorem aluBody_ok (op : AluOp) (s : State) (ha : a.toNat < 8) (hb : b.toNat < 8) :
    aluBody op a b s =
      (aluApply op ⟨a.toNat, ha⟩ ⟨b.toNat, hb⟩ s >>= fun t => .ok (t.advance 3)) := by
  simp only [aluBody, regIndex_of_lt ha, regIndex_of_lt hb, ok_bind, pure_eq_ok]

theorem exec_add (s : State) (ha : a.toNat < 8) (hb : b.toNat < 8) :
    exec (.add a b) s = .next ((s.setReg ⟨a.toNat, ha⟩
      (addBytes (s.reg ⟨a.toNat, ha⟩) (s.reg ⟨b.toNat, hb⟩))).advance 3) := by
  simp only [exec, execAdd, aluBody_ok .add s ha hb, aluApply, ok_bind, finish_ok]

theorem exec_mul (s : State) (ha : a.toNat < 8) (hb : b.toNat < 8) :
    exec (.mul a b) s = .next ((s.setReg ⟨a.toNat, ha⟩
      (mulBytes (s.reg ⟨a.toNat, ha⟩) (s.reg ⟨b.toNat, hb⟩))).advance 3) := by
  simp only [exec, execMul, aluBody_ok .mul s ha hb, aluApply, ok_bind, finish_ok]

theorem exec_cmp (s : State) (ha : a.toNat < 8) (hb : b.toNat < 8) :
    exec (.cmp a b) s = .next ((s.setFl
      (compareFlags (s.reg ⟨a.toNat, ha⟩) (s.reg ⟨b.toNat, hb⟩))).advance 3) := by
  simp only [exec, execCmp, aluBody_ok .cmp s ha hb, aluApply, ok_bind, finish_ok]

theorem exec_push (s : State) (ha : a.toNat < 8) (hs : s.sp ≠ 0) :
    exec (.push a) s = .next (((s.setSp (s.sp - 1)).setMem
      (s.mem.write (s.sp - 1).toNat ((s.setSp (s.sp - 1)).reg ⟨a.toNat, ha⟩))).advance 2) := by
  have hw := memWrite_sp ((s.setSp (s.sp - 1)).reg ⟨a.toNat, ha⟩) (s.setSp (s.sp - 1)) (s.setSp (s.sp - 1))
  rw [State.sp_setSp, State.setSp_mem] at hw
  simp only [exec, execPush, regIndex_of_lt ha, spDown_of_ne hs, ok_bind, State.sp_setSp, hw, pure_eq_ok,
    finish_ok]

theorem exec_push_full (ha : a.toNat < 8) (hs : s.sp = 0) :
    exec (.push a) s = .next (s.raise ⟨.stackOutOfRange, 0⟩) := by
  simp only [exec, execPush, regIndex_of_lt ha, spDown_of_eq hs, ok_bind, error_bind, finish_error]

theorem exec_pop (s : State) (ha : a.toNat < 8)
    (hs : (s.setReg ⟨a.toNat, ha⟩ (s.mem.read s.sp.toNat)).sp ≠ 255) :
    exec (.pop a) s = .next (((s.setReg ⟨a.toNat, ha⟩ (s.mem.read s.sp.toNat)).setSp
      ((s.setReg ⟨a.toNat, ha⟩ (s.mem.read s.sp.toNat)).sp + 1)).advance 2) := by
  simp only [exec, execPop, regIndex_of_lt ha, memRead_sp, spUp_of_ne hs, ok_bind, pure_eq_ok, finish_ok]

theorem exec_pop_top (ha : a.toNat < 8)
    (hs : (s.setReg ⟨a.toNat, ha⟩ (s.mem.read s.sp.toNat)).sp = 255) :
    exec (.pop a) s = .next (s.raise ⟨.stackOutOfRange, 255⟩) := by
  simp only [exec, execPop, regIndex_of_lt ha, memRead_sp, spUp_of_eq hs, ok_bind, error_bind, finish_error]

theorem exec_call (s : State) (ha : a.toNat < 8) (hs : s.sp ≠ 0) (hp : s.pc.toNat ≤ 253) :
    exec (.call a) s = .next (((s.setSp (s.sp - 1)).setMem
      (s.mem.write (s.sp - 1).toNat (BitVec.ofNat 8 (s.pc.toNat + 2)))).setPc
      (zext9 ((s.setSp (s.sp - 1)).reg ⟨a.toNat, ha⟩))) := by
  have hw := memWrite_sp (BitVec.ofNat 8 (s.pc.toNat + 2)) (s.setSp (s.sp - 1)) (s.setSp (s.sp - 1))
  rw [State.sp_setSp, State.setSp_mem] at hw
  simp only [exec, execCall, regIndex_of_lt ha, spDown_of_ne hs, returnAddress_of_le hp, ok_bind,
    State.sp_setSp, hw, pure_eq_ok, finish_ok, State.reg_setMem]

theorem exec_call_full (ha : a.toNat < 8) (hs : s.sp = 0) :
    exec (.call a) s = .next (s.raise ⟨.stackOutOfRange, 0⟩) := by
  simp only [exec, execCall, regIndex_of_lt ha, spDown_of_eq hs, ok_bind, error_bind, finish_error]

theorem exec_call_noReturn (ha : a.toNat < 8) (hs : s.sp ≠ 0) (hp : 253 < s.pc.toNat) :
    exec (.call a) s = .next (s.raise ⟨.returnAddressOutOfRange, s.pc.toNat + 2⟩) := by
  simp only [exec, execCall, regIndex_of_lt ha, spDown_of_ne hs, returnAddress_of_gt hp, ok_bind,
    error_bind, finish_error]

theorem exec_ret (s : State) (hs : s.sp ≠ 255) :
    exec .ret s = .next ((s.setSp (s.sp + 1)).setPc (zext9 (s.mem.read s.sp.toNat))) := by
  simp only [exec, execRet, memRead_sp, spUp_of_ne hs, ok_bind, pure_eq_ok, finish_ok]

theorem exec_ret_top (hs : s.sp = 255) :
    exec .ret s = .next (s.raise ⟨.stackOutOfRange, 255⟩) := by
  simp only [exec, execRet, memRead_sp, spUp_of_eq hs, ok_bind, error_bind, finish_error]

theorem exec_jmp (s : State) (ha : a.toNat < 8) :
    exec (.jmp a) s = .next (s.setPc (zext9 (s.reg ⟨a.toNat, ha⟩))) := by
  simp only [exec, execJmp, regIndex_of_lt ha, ok_bind, pure_eq_ok, finish_ok]

theorem exec_jeq_taken (s : State) (hf : s.fl = flagE) (ha : a.toNat < 8) :
    exec (.jeq a) s = .next (s.setPc (zext9 (s.reg ⟨a.toNat, ha⟩))) := by
  simp only [exec, execJeq, if_pos hf, regIndex_of_lt ha, ok_bind, pure_eq_ok, finish_ok]

theorem exec_jeq_untaken (a : Byte) (hf : s.fl ≠ flagE) :
    exec (.jeq a) s = .next (s.advance 2) := by
  simp only [exec, execJeq, if_neg hf, pure_eq_ok, finish_ok]

/-! ## Every meaning inverted at once -/

/-- What an instruction that does not fault does, and when it can (the rules of 40_dispatch.md to
44_control_transfer.md). -/
def Effect (s t : State) : Instr → Prop
  | .hlt => t = s.setRun .halted
  | .ret => s.sp ≠ 255 ∧ t = (s.setSp (s.sp + 1)).setPc (zext9 (s.mem.read s.sp.toNat))
  | .push a => ∃ ha : a.toNat < 8, s.sp ≠ 0 ∧
      t = ((s.setSp (s.sp - 1)).setMem
        (s.mem.write (s.sp - 1).toNat ((s.setSp (s.sp - 1)).reg ⟨a.toNat, ha⟩))).advance 2
  | .pop a => ∃ ha : a.toNat < 8, (s.setReg ⟨a.toNat, ha⟩ (s.mem.read s.sp.toNat)).sp ≠ 255 ∧
      t = ((s.setReg ⟨a.toNat, ha⟩ (s.mem.read s.sp.toNat)).setSp
        ((s.setReg ⟨a.toNat, ha⟩ (s.mem.read s.sp.toNat)).sp + 1)).advance 2
  | .prn a => ∃ ha : a.toNat < 8, t = (s.emit (s.reg ⟨a.toNat, ha⟩)).advance 2
  | .call a => ∃ ha : a.toNat < 8, s.sp ≠ 0 ∧ s.pc.toNat ≤ 253 ∧
      t = ((s.setSp (s.sp - 1)).setMem
        (s.mem.write (s.sp - 1).toNat (BitVec.ofNat 8 (s.pc.toNat + 2)))).setPc
        (zext9 ((s.setSp (s.sp - 1)).reg ⟨a.toNat, ha⟩))
  | .jmp a => ∃ ha : a.toNat < 8, t = s.setPc (zext9 (s.reg ⟨a.toNat, ha⟩))
  | .jeq a => (s.fl = flagE ∧ ∃ ha : a.toNat < 8, t = s.setPc (zext9 (s.reg ⟨a.toNat, ha⟩))) ∨
      (s.fl ≠ flagE ∧ t = s.advance 2)
  | .ldi a b => ∃ ha : a.toNat < 8, t = (s.setReg ⟨a.toNat, ha⟩ b).advance 3
  | .add a b => ∃ (ha : a.toNat < 8) (hb : b.toNat < 8), t = (s.setReg ⟨a.toNat, ha⟩
      (addBytes (s.reg ⟨a.toNat, ha⟩) (s.reg ⟨b.toNat, hb⟩))).advance 3
  | .mul a b => ∃ (ha : a.toNat < 8) (hb : b.toNat < 8), t = (s.setReg ⟨a.toNat, ha⟩
      (mulBytes (s.reg ⟨a.toNat, ha⟩) (s.reg ⟨b.toNat, hb⟩))).advance 3
  | .cmp a b => ∃ (ha : a.toNat < 8) (hb : b.toNat < 8), t = (s.setFl
      (compareFlags (s.reg ⟨a.toNat, ha⟩) (s.reg ⟨b.toNat, hb⟩))).advance 3

/-- The three faults a handler can raise (rules R203, R204 and R205). -/
def HandlerRaise (i : Instr) (s : State) (r : Raise) : Prop :=
  (r.cause = .registerOutOfRange ∧ 8 ≤ r.info ∧ r.info ≤ 255) ∨
  (r.cause = .stackOutOfRange ∧ (r.info = 0 ∨ r.info = 255)) ∨
  (r.cause = .returnAddressOutOfRange ∧ r.info = s.pc.toNat + 2 ∧ 253 < s.pc.toNat ∧ ∃ a, i = .call a)

theorem handlerRaise_index (i : Instr) (s : State) {x : Byte} (h : 8 ≤ x.toNat) :
    HandlerRaise i s ⟨.registerOutOfRange, x.toNat⟩ :=
  .inl ⟨rfl, h, Nat.le_of_lt_succ x.isLt⟩

theorem handlerRaise_empty (i : Instr) (s : State) : HandlerRaise i s ⟨.stackOutOfRange, 255⟩ :=
  .inr (.inl ⟨rfl, .inr rfl⟩)

theorem handlerRaise_full (i : Instr) (s : State) : HandlerRaise i s ⟨.stackOutOfRange, 0⟩ :=
  .inr (.inl ⟨rfl, .inl rfl⟩)

/-- A handler has its whole effect, or takes one of its faults and has none of it (rule R101). -/
theorem exec_inv {i : Instr} {t : State} (h : exec i s = .next t) :
    Effect s t i ∨ ∃ r, HandlerRaise i s r ∧ t = s.raise r := by
  have index {i : Instr} {x : Byte} (hx : 8 ≤ x.toNat)
      (he : exec i s = .next (s.raise ⟨.registerOutOfRange, x.toNat⟩)) (h : exec i s = .next t) :
      Effect s t i ∨ ∃ r, HandlerRaise i s r ∧ t = s.raise r :=
    .inr ⟨_, handlerRaise_index i s hx, by rw [he] at h; cases h; rfl⟩
  cases i with
  | hlt => exact .inl (by rw [exec_hlt] at h; cases h; rfl)
  | ret =>
    by_cases hs : s.sp = 255
    · exact .inr ⟨_, handlerRaise_empty _ s, by rw [exec_ret_top hs] at h; cases h; rfl⟩
    · exact .inl ⟨hs, by rw [exec_ret s hs] at h; cases h; rfl⟩
  | push a =>
    by_cases ha : a.toNat < 8
    · by_cases hs : s.sp = 0
      · exact .inr ⟨_, handlerRaise_full _ s, by rw [exec_push_full ha hs] at h; cases h; rfl⟩
      · exact .inl ⟨ha, hs, by rw [exec_push s ha hs] at h; cases h; rfl⟩
    · exact index (not_lt.mp ha) (exec_push_badIndex (not_lt.mp ha)) h
  | pop a =>
    by_cases ha : a.toNat < 8
    · by_cases hs : (s.setReg ⟨a.toNat, ha⟩ (s.mem.read s.sp.toNat)).sp = 255
      · exact .inr ⟨_, handlerRaise_empty _ s, by rw [exec_pop_top ha hs] at h; cases h; rfl⟩
      · exact .inl ⟨ha, hs, by rw [exec_pop s ha hs] at h; cases h; rfl⟩
    · exact index (not_lt.mp ha) (exec_pop_badIndex (not_lt.mp ha)) h
  | prn a =>
    by_cases ha : a.toNat < 8
    · exact .inl ⟨ha, by rw [exec_prn s ha] at h; cases h; rfl⟩
    · exact index (not_lt.mp ha) (exec_prn_badIndex (not_lt.mp ha)) h
  | call a =>
    by_cases ha : a.toNat < 8
    · by_cases hs : s.sp = 0
      · exact .inr ⟨_, handlerRaise_full _ s, by rw [exec_call_full ha hs] at h; cases h; rfl⟩
      · by_cases hp : s.pc.toNat ≤ 253
        · exact .inl ⟨ha, hs, hp, by rw [exec_call s ha hs hp] at h; cases h; rfl⟩
        · exact .inr ⟨_, .inr (.inr ⟨rfl, rfl, not_le.mp hp, a, rfl⟩), by
            rw [exec_call_noReturn ha hs (not_le.mp hp)] at h; cases h; rfl⟩
    · exact index (not_lt.mp ha) (exec_call_badIndex (not_lt.mp ha)) h
  | jmp a =>
    by_cases ha : a.toNat < 8
    · exact .inl ⟨ha, by rw [exec_jmp s ha] at h; cases h; rfl⟩
    · exact index (not_lt.mp ha) (exec_jmp_badIndex (not_lt.mp ha)) h
  | jeq a =>
    by_cases hf : s.fl = flagE
    · by_cases ha : a.toNat < 8
      · exact .inl (.inl ⟨hf, ha, by rw [exec_jeq_taken s hf ha] at h; cases h; rfl⟩)
      · exact index (not_lt.mp ha) (exec_jeq_badIndex hf (not_lt.mp ha)) h
    · exact .inl (.inr ⟨hf, by rw [exec_jeq_untaken a hf] at h; cases h; rfl⟩)
  | ldi a b =>
    by_cases ha : a.toNat < 8
    · exact .inl ⟨ha, by rw [exec_ldi b s ha] at h; cases h; rfl⟩
    · exact index (not_lt.mp ha) (exec_ldi_badIndex (not_lt.mp ha)) h
  | add a b =>
    by_cases ha : a.toNat < 8
    · by_cases hb : b.toNat < 8
      · exact .inl ⟨ha, hb, by rw [exec_add s ha hb] at h; cases h; rfl⟩
      · exact index (not_lt.mp hb) (exec_add_badSecond ha (not_lt.mp hb)) h
    · exact index (not_lt.mp ha) (exec_add_badFirst (not_lt.mp ha)) h
  | mul a b =>
    by_cases ha : a.toNat < 8
    · by_cases hb : b.toNat < 8
      · exact .inl ⟨ha, hb, by rw [exec_mul s ha hb] at h; cases h; rfl⟩
      · exact index (not_lt.mp hb) (exec_mul_badSecond ha (not_lt.mp hb)) h
    · exact index (not_lt.mp ha) (exec_mul_badFirst (not_lt.mp ha)) h
  | cmp a b =>
    by_cases ha : a.toNat < 8
    · by_cases hb : b.toNat < 8
      · exact .inl ⟨ha, hb, by rw [exec_cmp s ha hb] at h; cases h; rfl⟩
      · exact index (not_lt.mp hb) (exec_cmp_badSecond ha (not_lt.mp hb)) h
    · exact index (not_lt.mp ha) (exec_cmp_badFirst (not_lt.mp ha)) h

/-! ## The step inverted -/

/-- The bytes at `pc` of an instruction with one operand. -/
theorem standsAtPc_call {s : State} {a : Byte} (h : StandsAtPc s (.call a)) :
    s.opcodeAtPc = Opcode.call ∧ s.byteAtPc 1 = a := by
  simpa [StandsAtPc, encode, List.range_succ, byteAtPc_zero, eq_comm] using h

/-- The faults a step can take (rule R200, all but the two no program reaches). -/
def StepRaise (s : State) (r : Raise) : Prop :=
  (r = ⟨.memoryOutOfRange, s.pc.toNat⟩ ∧ 255 < s.pc.toNat) ∨
  (r = ⟨.memoryOutOfRange, 256⟩ ∧ s.pc.toNat ≤ 255) ∨
  (r = ⟨.unknownOpcode, s.opcodeAtPc.toNat⟩ ∧ s.opcodeAtPc ∉ Opcode.table) ∨
  (∃ i, StandsAtPc s i ∧ s.pc.toNat + operandCount s.opcodeAtPc ≤ 255 ∧ HandlerRaise i s r)

/-- A step faults and changes nothing else, or runs the instruction at `pc`, or skips an unknown opcode
(rules R100, R101 and R104). -/
theorem step_inv {t : State} (h : step s = .next t) :
    s.run = .running ∧
    ((∃ r, StepRaise s r ∧ t = s.raise r) ∨
      (s.pc.toNat ≤ 255 ∧ ∃ i, StandsAtPc s i ∧ Effect s t i) ∨
      (s.pc.toNat ≤ 255 ∧ s.opcodeAtPc ∉ Opcode.table ∧ s.unknownOpcodePolicy = .skip ∧
        t = s.advance 1)) := by
  have hr : s.run = .running := by
    unfold step at h
    split at h
    · assumption
    · cases h
    · cases h
  refine ⟨hr, ?_⟩
  rcases step_cases hr with ⟨hp, hs⟩ | ⟨hp, -, -, hs⟩ | ⟨hp, hn, i, hi, hs⟩ | ⟨hp, -, ho, hs⟩ <;>
    rw [hs] at h
  · exact .inl ⟨_, .inl ⟨rfl, hp⟩, by cases h; rfl⟩
  · exact .inl ⟨_, .inr (.inl ⟨rfl, hp⟩), by cases h; rfl⟩
  · rcases exec_inv h with he | ⟨r, hraise, rfl⟩
    · exact .inr (.inl ⟨hp, i, hi, he⟩)
    · exact .inl ⟨r, .inr (.inr (.inr ⟨i, hi, hn, hraise⟩)), rfl⟩
  · cases hpol : s.unknownOpcodePolicy with
    | fault =>
      rw [execUnknown_fault _ hpol] at h
      exact .inl ⟨_, .inr (.inr (.inl ⟨rfl, ho⟩)), by cases h; rfl⟩
    | skip =>
      rw [execUnknown_skip _ hpol] at h
      exact .inr (.inr ⟨hp, ho, rfl, by cases h; rfl⟩)

/-- The index of an operand byte that names a register is the number the byte is. -/
theorem index_eq_iff {k : Nat} (hk : k < 8) (ha : a.toNat < 8) :
    (⟨a.toNat, ha⟩ : Fin 8) = ⟨k, hk⟩ ↔ a = BitVec.ofNat 8 k := by
  rw [Fin.mk.injEq]
  constructor
  · intro h
    rw [← h, BitVec.ofNat_toNat, BitVec.setWidth_eq]
  · intro h
    rw [h, BitVec.toNat_ofNat]
    omega

end Sys2Proof.Machine
end

