-- ==== Sys2Proof/Laws/Host.lean ====
section
/-! SUPPORT. What a bounded run does, one step at a time, and what each host operation can leave. -/

namespace Sys2Proof.Machine

variable {s t : State} {h g : HostSession} {reply : HostReply} {k n : Nat}

/-! ## Termination (rule R241) -/

@[simp] theorem termination_of_running (hr : s.run = .running) : s.termination = none := by
  simp only [State.termination, hr]

@[simp] theorem termination_of_halted (hr : s.run = .halted) : s.termination = some .halted := by
  simp only [State.termination, hr]

theorem termination_of_faulted {f : FaultRecord} (hr : s.run = .faulted) (hf : s.faultRecord = some f) :
    s.termination = some (.fault f.cause f.info) := by
  simp only [State.termination, hr, hf]

/-- A state that has a termination result is stopped, and the result is not the host's step limit. -/
theorem termination_eq_some {r : RunResult} (ht : s.termination = some r) :
    s.run ≠ .running ∧ r ≠ .stepLimit := by
  unfold State.termination at ht
  split at ht
  · cases ht
  · cases ht; simp_all
  · cases ht; simp_all
  · cases ht

/-! ## Bounded runs (rule R106) -/

theorem runFor_of_termination {r : RunResult} (ht : s.termination = some r) : runFor n s = (r, s) := by
  unfold runFor
  rw [ht]

theorem runFor_zero (hr : s.run = .running) : runFor 0 s = (.stepLimit, s) := by
  unfold runFor
  rw [termination_of_running hr]

theorem runFor_succ (hr : s.run = .running) (hs : step s = .next t) : runFor (n + 1) s = runFor n t := by
  rw [runFor, termination_of_running hr]
  simp only [hs]

/-! ## The host's run (rule R240) -/

theorem hostRun_of_stopped (hr : h.core.run ≠ .running) :
    HostRun h reply g ↔ (reply, g) = (.refused, h) := by
  unfold HostRun
  split <;> simp_all

theorem hostRun_of_limit (hr : h.core.run = .running) (hk : h.core.maxSteps = some k) :
    HostRun h reply g ↔ (reply, g) = hostRunFor k h := by
  simp only [HostRun, hr, hk]

theorem hostRun_of_no_limit (hr : h.core.run = .running) (hk : h.core.maxSteps = none) :
    HostRun h reply g ↔
      ∃ r u, RunEnds h.core r u ∧ (reply, g) = (.runResult r, { core := u, loadOpen := false }) := by
  simp only [HostRun, hr, hk]

/-- With `MAX_STEPS = 0` a run changes nothing: no step is taken, so `load` stays as it was (rule R233). -/
theorem hostRunFor_zero (hr : h.core.run = .running) : hostRunFor 0 h = (.runResult .stepLimit, h) := by
  rw [hostRunFor, runFor_zero hr]
  simp

end Sys2Proof.Machine
end

