-- ==== Sys2Proof/Laws/PerInstr.lean ====
section
/-! SUPPORT. Facts of every instruction as syntax, one lemma a constructor. -/

namespace Sys2Proof.Laws

/-- The encoding is an opcode byte and as many operand bytes as its bits 7:6 say (rules R70 and R79). -/
def EncodedLength.Statement (i : Instr) : Prop :=
  ∃ op opnds, encode i = op :: opnds ∧ opnds.length = operandCount op

theorem EncodedLength.hlt : EncodedLength.Statement .hlt := ⟨_, _, rfl, rfl⟩
theorem EncodedLength.ret : EncodedLength.Statement .ret := ⟨_, _, rfl, rfl⟩
theorem EncodedLength.push (a : Byte) : EncodedLength.Statement (.push a) := ⟨_, _, rfl, rfl⟩
theorem EncodedLength.pop (a : Byte) : EncodedLength.Statement (.pop a) := ⟨_, _, rfl, rfl⟩
theorem EncodedLength.prn (a : Byte) : EncodedLength.Statement (.prn a) := ⟨_, _, rfl, rfl⟩
theorem EncodedLength.call (a : Byte) : EncodedLength.Statement (.call a) := ⟨_, _, rfl, rfl⟩
theorem EncodedLength.jmp (a : Byte) : EncodedLength.Statement (.jmp a) := ⟨_, _, rfl, rfl⟩
theorem EncodedLength.jeq (a : Byte) : EncodedLength.Statement (.jeq a) := ⟨_, _, rfl, rfl⟩
theorem EncodedLength.ldi (a b : Byte) : EncodedLength.Statement (.ldi a b) :=
  ⟨_, _, rfl, (by decide : 2 = operandCount Opcode.ldi)⟩
theorem EncodedLength.add (a b : Byte) : EncodedLength.Statement (.add a b) :=
  ⟨_, _, rfl, (by decide : 2 = operandCount Opcode.add)⟩
theorem EncodedLength.mul (a b : Byte) : EncodedLength.Statement (.mul a b) :=
  ⟨_, _, rfl, (by decide : 2 = operandCount Opcode.mul)⟩
theorem EncodedLength.cmp (a b : Byte) : EncodedLength.Statement (.cmp a b) :=
  ⟨_, _, rfl, (by decide : 2 = operandCount Opcode.cmp)⟩

end Sys2Proof.Laws
end

