-- ==== Sys2Proof/Tests/Slice0.lean ====
section
/-! SUPPORT. Tests. Expected results are those of 95_test_vectors.md (their ids stand in the names or
comments) or written out from a rule; each test is one step or one decode. -/

namespace Sys2Proof.Tests

open Sys2Proof.Machine

/-! ## Well-formedness: one ill-formed term for each check -/

theorem test_wellFormed_refuses_push_r8 : (Instr.push 8).wellFormed = false := by decide
theorem test_wellFormed_refuses_pop_r8 : (Instr.pop 8).wellFormed = false := by decide
theorem test_wellFormed_refuses_prn_r9 : (Instr.prn 9).wellFormed = false := by decide
theorem test_wellFormed_refuses_call_r8 : (Instr.call 8).wellFormed = false := by decide
theorem test_wellFormed_refuses_jmp_r8 : (Instr.jmp 8).wellFormed = false := by decide
theorem test_wellFormed_refuses_jeq_r255 : (Instr.jeq 255).wellFormed = false := by decide
theorem test_wellFormed_refuses_ldi_r8 : (Instr.ldi 8 1).wellFormed = false := by decide
theorem test_wellFormed_refuses_add_first : (Instr.add 8 0).wellFormed = false := by decide
theorem test_wellFormed_refuses_add_second : (Instr.add 0 8).wellFormed = false := by decide
theorem test_wellFormed_refuses_mul_first : (Instr.mul 8 0).wellFormed = false := by decide
theorem test_wellFormed_refuses_mul_second : (Instr.mul 0 8).wellFormed = false := by decide
theorem test_wellFormed_refuses_cmp_first : (Instr.cmp 8 0).wellFormed = false := by decide
theorem test_wellFormed_refuses_cmp_second : (Instr.cmp 0 200).wellFormed = false := by decide
theorem test_wellFormed_takes_r7_and_any_immediate : (Instr.ldi 7 255).wellFormed = true := by decide

/-! ## Decoding: the encodings of rules R75 and R81, bit by bit -/

theorem test_decode_hlt : decode [0b00000001] = .ok (.hlt, []) := by decide
theorem test_decode_ret : decode [0b00010001] = .ok (.ret, []) := by decide
theorem test_decode_push : decode [0b01000101, 5] = .ok (.push 5, []) := by decide
theorem test_decode_pop : decode [0b01000110, 6] = .ok (.pop 6, []) := by decide
theorem test_decode_prn : decode [0b01000111, 7] = .ok (.prn 7, []) := by decide
theorem test_decode_call : decode [0b01010000, 1] = .ok (.call 1, []) := by decide
theorem test_decode_jmp : decode [0b01010100, 3] = .ok (.jmp 3, []) := by decide
theorem test_decode_jeq : decode [0b01010101, 2] = .ok (.jeq 2, []) := by decide
theorem test_decode_ldi : decode [0b10000010, 4, 0b11110000] = .ok (.ldi 4 240, []) := by decide
theorem test_decode_add : decode [0b10100000, 1, 2] = .ok (.add 1 2, []) := by decide
theorem test_decode_mul : decode [0b10100010, 3, 4] = .ok (.mul 3 4, []) := by decide
theorem test_decode_cmp : decode [0b10100111, 5, 6] = .ok (.cmp 5 6, []) := by decide

/-- No masking to three bits (rule R74), and the bytes after the instruction are left over. -/
theorem test_decode_keeps_operand_and_rest : decode [0x45, 0xFF, 0x01] = .ok (.push 255, [0x01]) := by decide
/-- There is no NOP (rule R76). -/
theorem test_decode_zero_is_unknown : decode [0x00, 1] = .error (.unknownOpcode 0) := by decide
/-- HALT's neighbours are unknown (rule R77). -/
theorem test_decode_neighbours_unknown :
    decode [0x02] = .error (.unknownOpcode 2) ∧ decode [0x83, 1, 2] = .error (.unknownOpcode 0x83) ∧
      decode [0xA1, 1, 2] = .error (.unknownOpcode 0xA1) := by decide
/-- Three operand bytes are read before 0xC0 is found unknown (rules R70 and R107). -/
theorem test_decode_three_operands :
    decode [0xC0, 1, 2, 3] = .error (.unknownOpcode 0xC0) ∧ decode [0xC0, 1, 2] = .error (.truncated 3) := by
  decide
theorem test_decode_truncated :
    decode [] = .error (.truncated 0) ∧ decode [0x45] = .error (.truncated 1) ∧
      decode [0x82, 0] = .error (.truncated 2) := by decide

/-- The census of rule R76: 62, 58, 60 and 64 unknown opcodes by operand count. -/
def unknownCount (n : Nat) : Nat :=
  (List.range 64).countP fun k => !(Opcode.table.contains (BitVec.ofNat 8 (64 * n + k)))

theorem test_unknown_census_0 : unknownCount 0 = 62 := by decide
theorem test_unknown_census_1 : unknownCount 1 = 58 := by decide
theorem test_unknown_census_2 : unknownCount 2 = 60 := by decide
theorem test_unknown_census_3 : unknownCount 3 = 64 := by decide

/-- The bits of a table word count from the first byte up: `0x082` is LDI's opcode, then `a`, then `b`. -/
theorem test_decodeTableWord :
    decodeTableWord 24 0xFF0582 = some (.ldi 5 255) ∧ decodeTableWord 8 0x01 = some .hlt ∧
      decodeTableWord 8 0x82 = some (.ldi 0 0) ∧ decodeTableWord 8 0x00 = none := by decide

/-! ## Running one step -/

/-- The start state with `REG_ALIAS = ALIASED` (rule R32). -/
def aliasedStart : State := { State.reset with special := .aliased }

/-- The start state with `UNKNOWN_OPCODE_POLICY = SKIP`. -/
def skipStart : State := { State.reset with unknownOpcodePolicy := .skip }

/-- Bytes stored at `pc`, and `pc` set to them. -/
def State.at (s : State) (pc : Nat) (bytes : List Byte) : State :=
  (s.setPc (BitVec.ofNat 9 pc)).setMem (s.mem.writeList pc bytes)

/-- One byte stored. -/
def State.poke (s : State) (a : Nat) (v : Byte) : State := s.setMem (s.mem.write a v)

/-- The next state of a step, if there is one. -/
def after (s : State) : Option State :=
  match step s with
  | .next t => some t
  | .fault _ => none
  | .refused _ => none

/-- What a step that faults leaves to compare: cause, info, `fpc`. -/
def faultAfter (s : State) : Option (Cause × Nat × Nat) :=
  match after s with
  | none => none
  | some t => t.faultRecord.map fun f => (f.cause, f.info, f.fpc.toNat)

/-- One view of the next state. -/
def see (f : State → List Nat) (s : State) : Option (List Nat) := (after s).map f

/-! 2.1, dispatch -/

theorem test_hlt_D2 :
    (after (State.at .reset 255 [0x01])).map (fun t => (t.run, t.pc.toNat)) = some (.halted, 255) := by decide
theorem test_unknown_D3 : faultAfter (State.at .reset 0 [0x00]) = some (.unknownOpcode, 0, 0) := by decide
theorem test_unknown_D5 :
    faultAfter (State.at .reset 10 [0xC0, 1, 2, 3]) = some (.unknownOpcode, 192, 10) := by decide
theorem test_skip_D6 : see (fun t => [t.pc.toNat]) (State.at skipStart 10 [0xC0, 1, 2, 3]) = some [11] := by
  decide
theorem test_skip_D7 :
    faultAfter (State.at skipStart 253 [0xC0, 1, 2]) = some (.memoryOutOfRange, 256, 253) := by decide
theorem test_fetch_D9 : faultAfter (State.at .reset 256 []) = some (.memoryOutOfRange, 256, 256) := by decide
theorem test_stopped_has_no_step :
    after (State.reset.setRun .halted) = none ∧ after (State.reset.setRun .faulted) = none := by decide

/-! 2.2, data movement -/

theorem test_ldi_M4 :
    see (fun t => [(t.reg 7).toNat, t.sp.toNat, t.pc.toNat]) (State.at .reset 0 [0x82, 7, 0x10]) =
      some [16, 0xF4, 3] := by decide
theorem test_ldi_M5 :
    see (fun t => [(t.reg 7).toNat, t.sp.toNat, t.pc.toNat]) (State.at aliasedStart 0 [0x82, 7, 0x10]) =
      some [16, 16, 3] := by decide
theorem test_prn_M8 :
    see (fun t => t.out.map (·.toNat) ++ [t.pc.toNat]) (State.at (State.reset.setReg 0 17) 9 [0x47, 0]) =
      some [17, 11] := by decide
theorem test_prn_M11 :
    see (fun t => t.out.map (·.toNat)) (State.at aliasedStart 0 [0x47, 7]) = some [244] := by decide

/-! 2.3, ALU -/

theorem test_add_A2 :
    see (fun t => [(t.reg 0).toNat, (t.reg 1).toNat, t.pc.toNat])
      (State.at ((State.reset.setReg 0 200).setReg 1 100) 0 [0xA0, 0, 1]) = some [44, 100, 3] := by decide
theorem test_add_A8 :
    see (fun t => [(t.reg 6).toNat, t.fl.toNat])
      (State.at ((aliasedStart.setReg 6 1).setReg 1 3) 0 [0xA0, 6, 1]) = some [4, 4] := by decide
theorem test_mul_A10 :
    see (fun t => [(t.reg 2).toNat, (t.reg 3).toNat])
      (State.at ((State.reset.setReg 2 16).setReg 3 16) 0 [0xA2, 2, 3]) = some [0, 16] := by decide
theorem test_mul_A11 :
    see (fun t => [(t.reg 0).toNat]) (State.at (State.reset.setReg 0 255) 0 [0xA2, 0, 0]) = some [1] := by decide
theorem test_cmp_A16 :
    see (fun t => [t.fl.toNat, (t.reg 0).toNat, (t.reg 6).toNat])
      (State.at ((State.reset.setReg 0 0x80).setReg 1 0x7F) 0 [0xA7, 0, 1]) = some [2, 0x80, 0] := by decide
theorem test_cmp_A17 :
    see (fun t => [t.fl.toNat]) (State.at (State.reset.setReg 1 255) 0 [0xA7, 0, 1]) = some [4] := by decide

/-! 2.4, stack -/

theorem test_push_S3 :
    see (fun t => [t.sp.toNat, (t.mem.read 0).toNat, t.pc.toNat])
      (State.at ((State.reset.setSp 1).setReg 0 9) 0 [0x45, 0]) = some [0, 9, 2] := by decide
theorem test_push_S6 :
    see (fun t => [t.sp.toNat, (t.mem.read 0xF3).toNat]) (State.at aliasedStart 0 [0x45, 7]) =
      some [0xF3, 243] := by decide
theorem test_pop_S9 :
    see (fun t => [(t.reg 0).toNat, t.sp.toNat])
      (State.at (State.poke (State.reset.setSp 254) 254 7) 0 [0x46, 0]) = some [7, 255] := by decide
theorem test_pop_S10 :
    see (fun t => [(t.reg 7).toNat, t.sp.toNat])
      (State.at (State.poke (aliasedStart.setSp 0xF0) 0xF0 0x20) 0 [0x46, 7]) = some [0x21, 0x21] := by decide

/-! 2.5, control transfer -/

theorem test_call_T1 :
    see (fun t => [t.sp.toNat, (t.mem.read 0xF2).toNat, t.pc.toNat])
      (State.at ((State.reset.setSp 0xF3).setReg 1 15) 8 [0x50, 1]) = some [0xF2, 10, 15] := by decide
theorem test_call_T6 :
    see (fun t => [t.sp.toNat, (t.mem.read 0xF3).toNat, t.pc.toNat]) (State.at aliasedStart 0 [0x50, 7]) =
      some [0xF3, 2, 243] := by decide
theorem test_ret_T9 :
    see (fun t => [t.sp.toNat, t.pc.toNat])
      (State.at (State.poke (State.reset.setSp 0xF3) 0xF3 4) 255 [0x11]) = some [0xF4, 4] := by decide
theorem test_ret_T10 :
    see (fun t => [t.sp.toNat, t.pc.toNat]) (State.at .reset 0x20 [0x11]) = some [0xF5, 0] := by decide
theorem test_jmp_T14 :
    see (fun t => [t.pc.toNat]) (State.at (State.reset.setReg 0 255) 0 [0x54, 0]) = some [255] := by decide
theorem test_jeq_T15 :
    see (fun t => [t.pc.toNat]) (State.at ((State.reset.setReg 2 15).setFl 1) 12 [0x55, 2]) = some [15] := by
  decide
theorem test_jeq_T22 :
    see (fun t => [t.pc.toNat]) (State.at ((aliasedStart.setReg 6 3).setReg 0 50) 0 [0x55, 0]) = some [2] := by
  decide

/-! The fault record's codes (rule R200) and what the host's own questions need -/

theorem test_cause_codes :
    [Cause.unknownOpcode, .memoryOutOfRange, .registerOutOfRange, .stackOutOfRange,
      .returnAddressOutOfRange, .unsupportedOperation, .programTooLarge].map Cause.code =
      [1, 2, 3, 4, 5, 6, 7] := by decide
/-- P6's image, LDI R0, 1, as the first instruction after reset. -/
theorem test_withFetchWord_from_reset :
    see (fun t => [(t.reg 0).toNat, t.pc.toNat]) (State.reset.withFetchWord 24 0x010082) = some [1, 3] := by
  decide
/-- W2: 257 bytes are refused, and two bytes are written from address 0. -/
theorem test_load_W2_too_large :
    (loadCore (List.replicate 257 1) State.reset).1 = .fault .programTooLarge 257 := by
  rw [loadCore, if_pos (by rw [List.length_replicate]; decide), List.length_replicate]
theorem test_load_small :
    (loadCore [0x01, 0x02] State.reset).2.mem = [(0, 1), (1, 2)] ∧ (loadCore [] State.reset).1 = .ok := by
  decide

/-! ## Witnesses: states and operands that meet the hypotheses of each statement, clause by clause

A statement with no hypotheses has none here. `State.at s pc bytes` puts bytes at `pc`. -/

theorem witness_OpcodeTableHasExactlyTwelveRows :
    decode (0xA7 :: [7, 7]) = .ok (.cmp 7 7, []) ∧ decode (0x11 :: []) = .ok (.ret, []) := by decide

theorem witness_LengthComesFromTheOpcodeByte : decode (0x47 :: [255, 0]) = .ok (.prn 255, [0]) := by decide

/-- LDI R0, 9 in the last three cells (M-7). -/
def lastLdi : State := State.at .reset 253 [0x82, 0, 9]

theorem witness_StepRunsTheDecodedInstruction :
    lastLdi.run = .running ∧ decode (codeBytes lastLdi) = .ok (.ldi 0 9, []) := by decide

/-- Every arm of the statement: an instruction, an unknown opcode, bytes that are missing, no byte at all. -/
theorem witness_FetchRefinesDecodingMemory :
    decode (codeBytes lastLdi) = .ok (.ldi 0 9, []) ∧
      decode (codeBytes (State.at .reset 255 [0x00])) = .error (.unknownOpcode 0) ∧
      decode (codeBytes (State.at .reset 254 [0x82, 0])) = .error (.truncated 2) ∧
      decode (codeBytes (State.at .reset 258 [])) = .error (.truncated 0) := by decide

theorem witness_CoreStepsExactlyWhileRunning :
    State.reset.run = .running ∧ (State.reset.setRun .halted).run = .halted ∧
      (State.reset.raise ⟨.unknownOpcode, 0⟩).run = .faulted ∧
      (State.reset.raise ⟨.unknownOpcode, 0⟩).faultRecord = some ⟨.unknownOpcode, 0, 0⟩ ∧
      255 < (State.reset.setPc 256).pc.toNat ∧ (State.reset.setPc 256).run = .running := by decide

/-- The three clauses at the edge: operands just fit under each policy, and do not fit. -/
def unknownFits : State := State.at .reset 252 [0xC0, 1, 2, 3]
def unknownFitsSkip : State := State.at skipStart 252 [0xC0, 1, 2, 3]
def unknownMissing : State := State.at skipStart 253 [0xC0, 1, 2]

theorem witness_UnknownOpcodeFollowsThePolicy :
    (unknownFits.pc.toNat + unknownFits.opcodeAtPc.toNat / 64 = 255 ∧
      unknownFits.opcodeAtPc ∉ Opcode.table ∧ unknownFits.unknownOpcodePolicy = .fault) ∧
    (unknownFitsSkip.pc.toNat + unknownFitsSkip.opcodeAtPc.toNat / 64 = 255 ∧
      unknownFitsSkip.unknownOpcodePolicy = .skip) ∧
    (unknownMissing.pc.toNat + unknownMissing.opcodeAtPc.toNat / 64 = 256 ∧
      unknownMissing.opcodeAtPc ∉ Opcode.table) := by decide

/-- The opcode a step runs without a fault, with `FL`. -/
def runs (s : State) : Option (Nat × Nat) :=
  match after s with
  | none => none
  | some t => if t.run = .faulted then none else some (s.opcodeAtPc.toNat, s.fl.toNat)

/-- One state for each row of the table: LDI, PRN, JEQ untaken and taken, CALL, RET, HLT, a skipped byte. -/
theorem witness_ProgramCounterFollowsTheTable :
    runs lastLdi = some (0x82, 0) ∧
    runs (State.at .reset 254 [0x47, 0]) = some (0x47, 0) ∧
    runs (State.at .reset 254 [0x55, 9]) = some (0x55, 0) ∧
    runs (State.at (State.reset.setFl 1) 254 [0x55, 7]) = some (0x55, 1) ∧
    runs (State.at .reset 253 [0x50, 7]) = some (0x50, 0) ∧
    runs (State.at .reset 255 [0x11]) = some (0x11, 0) ∧
    runs (State.at .reset 255 [0x01]) = some (0x01, 0) ∧
    runs (State.at skipStart 255 [0x00]) = some (0x00, 0) := by decide

theorem witness_FaultsArePrecise :
    ∃ t, step (State.at .reset 254 [0x50, 1]) = .next t ∧ t.run = .faulted := ⟨_, rfl, by decide⟩

/-- One state for each check of rule R212, and one that no check stops. -/
theorem witness_StepTakesTheFirstFault :
    firstFault (State.at .reset 256 []) = some (.memoryOutOfRange, 256) ∧
    firstFault (State.at .reset 254 [0x82, 8]) = some (.memoryOutOfRange, 256) ∧
    firstFault unknownFits = some (.unknownOpcode, 0xC0) ∧
    firstFault (State.at (State.reset.setSp 0) 0 [0x45, 8]) = some (.registerOutOfRange, 8) ∧
    firstFault (State.at .reset 0 [0xA0, 7, 9]) = some (.registerOutOfRange, 9) ∧
    firstFault (State.at (State.reset.setSp 0) 254 [0x50, 7]) = some (.stackOutOfRange, 0) ∧
    firstFault (State.at (State.reset.setSp 255) 0 [0x11]) = some (.stackOutOfRange, 255) ∧
    firstFault (State.at .reset 254 [0x50, 1]) = some (.returnAddressOutOfRange, 256) ∧
    firstFault lastLdi = none := by decide

/-- A first and a second operand that is too large, and a fault with every operand in range. -/
theorem witness_RegisterFaultExactlyOnAccess :
    (accessedOperands .reset (.add 8 9)).find? (fun a => decide (7 < a.toNat)) = some 8 ∧
    (accessedOperands .reset (.add 7 9)).find? (fun a => decide (7 < a.toNat)) = some 9 ∧
    (∀ a ∈ accessedOperands (State.reset.setSp 0) (.push 7), a.toNat ≤ 7) ∧
    ∃ t, exec (.push 7) (State.reset.setSp 0) = .next t ∧ t.run = .faulted :=
  ⟨by decide, by decide, by decide, _, rfl, by decide⟩

/-- The four instructions that take it: PUSH and CALL at 0, POP and RET at 255, and POP R7 under `ALIASED`
that pops 255. -/
theorem witness_StackFaultExactlyAtTheEnds :
    State.reset.run = .running ∧
    faultAfter (State.at (State.reset.setSp 0) 10 [0x45, 0]) = some (.stackOutOfRange, 0, 10) ∧
    faultAfter (State.at (State.reset.setSp 0) 10 [0x50, 0]) = some (.stackOutOfRange, 0, 10) ∧
    faultAfter (State.at (State.reset.setSp 255) 10 [0x46, 0]) = some (.stackOutOfRange, 255, 10) ∧
    faultAfter (State.at (State.reset.setSp 255) 10 [0x11]) = some (.stackOutOfRange, 255, 10) ∧
    faultAfter (State.at (State.poke (aliasedStart.setSp 0xF0) 0xF0 0xFF) 10 [0x46, 7]) =
      some (.stackOutOfRange, 255, 10) := by decide

/-- The first address that is not there and the last one that is. -/
theorem witness_EveryAccessIsRangeChecked : 255 < 256 ∧ 255 ≤ 255 ∧ 0 ≤ 255 := by decide

/-- Both ways of leaving memory, at the lowest and the highest reachable `pc`, and a step that does not. -/
theorem witness_MemoryFaultExactlyAtFetch :
    faultAfter (State.at .reset 256 []) = some (.memoryOutOfRange, 256, 256) ∧
    faultAfter (State.at .reset 258 []) = some (.memoryOutOfRange, 258, 258) ∧
    faultAfter (State.at .reset 254 [0xA0, 0]) = some (.memoryOutOfRange, 256, 254) ∧
    faultAfter (State.at .reset 255 [0x54]) = some (.memoryOutOfRange, 256, 255) ∧
    faultAfter lastLdi = none := by decide

theorem witness_UnsupportedOperationIsUnreachable :
    ∃ t f, step (State.at .reset 0 [0xA0, 8, 0]) = .next t ∧ t.run = .faulted ∧ t.faultRecord = some f :=
  ⟨_, _, rfl, rfl, rfl⟩

theorem witness_WellFormedNeverRegisterFaults :
    ∃ t f, (Instr.push 7).wellFormed = true ∧ exec (.push 7) (State.reset.setSp 0) = .next t ∧
      t.run = .faulted ∧ t.faultRecord = some f := ⟨_, _, by decide, rfl, rfl, rfl⟩

/-! The instructions: an index at each end, each fault, and the fetch that leaves memory. -/

/-- The states the clause `OperandFetchFaultsFrom op first` speaks of: `op` at `pc`. -/
def opAt (op : Byte) (pc : Nat) : Bool :=
  decide ((State.at .reset pc [op]).run = .running ∧ (State.at .reset pc [op]).pc.toNat = pc ∧
    (State.at .reset pc [op]).opcodeAtPc = op)

theorem witness_OperandFetchFaultsFrom :
    ([0x82, 0xA0, 0xA2, 0xA7] : List Byte).all (fun op => opAt op 254 && opAt op 255) = true ∧
    ([0x45, 0x46, 0x47, 0x50, 0x54, 0x55] : List Byte).all (fun op => opAt op 255) = true := by decide

theorem witness_HltStopsTheCore : opAt 0x01 0 = true ∧ opAt 0x01 255 = true := by decide

/-- The register operands of the instruction statements: in range and out of range, at each boundary. -/
theorem witness_register_operands :
    (0 : Byte).toNat < 8 ∧ (7 : Byte).toNat < 8 ∧ 7 < (8 : Byte).toNat ∧ 7 < (255 : Byte).toNat := by decide

theorem witness_PrnEmitsTheRegister :
    (7 : Byte).toNat < 8 ∧ 7 < (8 : Byte).toNat ∧ opAt 0x47 255 = true := by decide

theorem witness_JmpGoesToTheRegister :
    (7 : Byte).toNat < 8 ∧ 7 < (8 : Byte).toNat ∧ opAt 0x54 255 = true := by decide

/-- Both operands in range (the same register twice too), the first out of range, only the second. -/
theorem witness_AddWritesTheSumModulo256 :
    ((7 : Byte).toNat < 8 ∧ (7 : Byte).toNat < 8) ∧ 7 < (8 : Byte).toNat ∧
    ((7 : Byte).toNat < 8 ∧ 7 < (8 : Byte).toNat) ∧ opAt 0xA0 254 = true := by decide

theorem witness_MulWritesTheProductModulo256 :
    ((0 : Byte).toNat < 8 ∧ (7 : Byte).toNat < 8) ∧ 7 < (8 : Byte).toNat ∧
    ((0 : Byte).toNat < 8 ∧ 7 < (255 : Byte).toNat) ∧ opAt 0xA2 254 = true := by decide

theorem witness_LdiLoadsTheImmediate :
    (∃ t, exec (.ldi 7 255) aliasedStart = .next t) ∧ (∃ t, exec (.ldi 6 0) State.reset = .next t) :=
  ⟨⟨_, rfl⟩, ⟨_, rfl⟩⟩

/-- The three relations of two registers. -/
theorem witness_CmpWritesTheWholeFlagsRegister :
    ((State.reset.reg 0).toNat = (State.reset.reg 1).toNat) ∧
    ((State.reset.reg 7).toNat > (State.reset.reg 0).toNat) ∧
    ((State.reset.reg 0).toNat < (State.reset.reg 7).toNat) := by decide

theorem witness_PushStoresBelowTheStackPointer :
    (State.reset.setSp 0).sp = 0 ∧ (State.reset.setSp 1).sp ≠ 0 ∧ (aliasedStart.setSp 255).sp ≠ 0 := by decide

/-- `SP` at 255 and just below it, and the popped byte at 255 for POP R7 under `ALIASED`. -/
theorem witness_PopReadsAtTheStackPointer :
    (State.reset.setSp 255).popBase 7 = 255 ∧ (State.reset.setSp 254).popBase 7 ≠ 255 ∧
    (State.poke (aliasedStart.setSp 0xF0) 0xF0 0xFF).popBase 7 = 255 ∧
    (State.poke (aliasedStart.setSp 255) 255 0x20).popBase 7 ≠ 255 := by decide

/-- Each check of CALL alone and the call that passes them all, at address 253. -/
theorem witness_CallPushesTheReturnAddress :
    (State.reset.setSp 0).sp = 0 ∧
    (255 < (State.reset.setPc 254).pc.toNat + 2 ∧ (State.reset.setPc 254).sp ≠ 0) ∧
    ((State.reset.setPc 253).pc.toNat + 2 ≤ 255 ∧ (State.reset.setPc 253).sp ≠ 0) := by decide

theorem witness_RetJumpsToThePoppedByte :
    (State.reset.setSp 255).sp = 255 ∧ (State.reset.setSp 254).sp ≠ 255 ∧ opAt 0x11 255 = true := by decide

theorem witness_JeqBranchesExactlyOnEqual :
    (State.reset.setFl 1).fl = 0x01 ∧ State.reset.fl ≠ 0x01 ∧ (aliasedStart.setReg 6 3).fl ≠ 0x01 := by decide

/-! Pairs of instructions -/

theorem witness_LdiThenPrnOutputsTheValue : ∃ t, exec (.ldi 5 255) State.reset = .next t := ⟨_, rfl⟩

/-- Both ends of the range of `SP`, under both values of `REG_ALIAS`. -/
theorem witness_PushThenPopRestores :
    (7 : Byte).toNat < 8 ∧ (State.reset.setSp 1).sp ≠ 0 ∧ (aliasedStart.setSp 1).sp ≠ 0 ∧
    (aliasedStart.setSp 255).sp ≠ 0 := by decide

/-- The return address 255, the highest; `u` is the state CALL left. -/
theorem witness_CallThenRetReturns :
    ∃ t, exec (.call 7) (State.reset.setPc 253) = .next t ∧ t.sp = 0xF3 ∧
      (State.reset.setPc 253).pc.toNat + 2 = 255 := ⟨_, rfl, by decide, by decide⟩

theorem witness_BranchTakenIffOperandsWereEqual :
    (∃ t, exec (.cmp 3 3) State.reset = .next t) ∧ State.reset.reg 3 = State.reset.reg 3 ∧
    (∃ t, exec (.cmp 0 7) State.reset = .next t) ∧ State.reset.reg 0 ≠ State.reset.reg 7 :=
  ⟨⟨_, rfl⟩, rfl, ⟨_, rfl⟩, by decide⟩

/-- PUSH R0 at 10 with `SP = 13` stores R0 = 1 at 12. -/
def pushesHlt : State := State.at ((State.reset.setSp 13).setReg 0 1) 10 [0x45, 0]

/-- CALL R1 at 10 with R1 = 13 and `SP = 15`: it stores 12 at 14, the operand of the instruction at 13. -/
def callsBelow : State := State.at ((State.reset.setSp 15).setReg 1 13) 10 [0x50, 1]

/-- PUSH and CALL, each with `k = 0` and `k = 1`; CALL R7 under `ALIASED` always has `k = 0`. -/
theorem witness_PushedByteIsFetchedNext :
    (pushesHlt.run = .running ∧ pushesHlt.pc.toNat + 2 ≤ 255 ∧ pushesHlt.sp ≠ 0 ∧
      (pushesHlt.byteAtPc 1).toNat = 0 ∧ pushesHlt.opcodeAtPc = 0x45 ∧
      pushesHlt.pc.toNat + 2 + 0 = (pushesHlt.sp - 1).toNat) ∧
    (pushesHlt.setSp 14).pc.toNat + 2 + 1 = ((pushesHlt.setSp 14).sp - 1).toNat ∧
    (callsBelow.run = .running ∧ callsBelow.pc.toNat + 2 ≤ 255 ∧ callsBelow.sp ≠ 0 ∧
      (callsBelow.byteAtPc 1).toNat = 1 ∧ callsBelow.opcodeAtPc = 0x50 ∧
      (callsBelow.reg 1).toNat + 1 = (callsBelow.sp - 1).toNat) ∧
    (callsBelow.reg 1).toNat + 0 = ((callsBelow.setSp 14).sp - 1).toNat ∧
    ((State.at aliasedStart 253 [0x50, 7]).byteAtPc 1).toNat = 7 := by decide

/-! Whole-machine rules -/

theorem witness_OnlyHltEntersHalted :
    ∃ t, step (State.at .reset 255 [0x01]) = .next t ∧ t.run = .halted := ⟨_, rfl, by decide⟩

theorem witness_OutputIsAppendedByPrnAndNeverRead :
    (∃ t, step (State.at .reset 0 [0x47, 7]) = .next t ∧ t.out ≠ []) ∧
    ∃ t, step lastLdi = .next t ∧ t.out = [] := ⟨⟨_, rfl, by decide⟩, _, rfl, by decide⟩

theorem witness_OnlyPushAndCallWriteMemory :
    ∃ t, step pushesHlt = .next t ∧ t.mem.read 12 ≠ pushesHlt.mem.read 12 := ⟨_, rfl, by decide⟩

/-- A step that changes a register, one that changes `SP` and one that changes `FL`, under `DECOUPLED`. -/
theorem witness_DecoupledCellsAreSeparate :
    (lastLdi.regAlias = .decoupled ∧ ∃ t, step lastLdi = .next t ∧ t.reg 0 ≠ lastLdi.reg 0) ∧
    (∃ t, step pushesHlt = .next t ∧ t.sp ≠ pushesHlt.sp) ∧
    ∃ t, step (State.at .reset 0 [0xA7, 0, 7]) = .next t ∧ t.fl ≠ State.reset.fl :=
  ⟨⟨rfl, _, rfl, by decide⟩, ⟨_, rfl, by decide⟩, _, rfl, by decide⟩

theorem witness_AliasedNamesShareACell :
    aliasedStart.regAlias = .aliased ∧ (∃ t, exec (.ldi 7 1) aliasedStart = .next t) ∧
    (aliasedStart.sp ≠ 0 ∧ ∃ t, exec (.push 7) aliasedStart = .next t) ∧
    (∃ t, exec (.ldi 6 1) aliasedStart = .next t) ∧ (∃ t, exec (.ldi 6 3) aliasedStart = .next t) ∧
    ∃ t, exec (.cmp 6 7) aliasedStart = .next t :=
  ⟨rfl, ⟨_, rfl⟩, ⟨by decide, _, rfl⟩, ⟨_, rfl⟩, ⟨_, rfl⟩, _, rfl⟩

/-- A step that keeps `FL` and a CMP that writes it. -/
theorem witness_FlagsAreReadByJeqAlone :
    (lastLdi.regAlias = .decoupled ∧ lastLdi.opcodeAtPc ≠ 0x55 ∧ ∃ t, step lastLdi = .next t) ∧
    (State.at .reset 0 [0xA7, 0, 7]).opcodeAtPc = 0xA7 ∧
      ∃ t, step (State.at .reset 0 [0xA7, 0, 7]) = .next t := ⟨⟨rfl, by decide, _, rfl⟩, by decide, _, rfl⟩

theorem witness_ParametersAreFixedForARun : ∃ t, step unknownMissing = .next t := ⟨_, rfl⟩

/-- The whole of memory, and the last step alone. -/
theorem witness_SkipRunsThroughZerosToTheEnd :
    (skipStart.run = .running ∧ skipStart.unknownOpcodePolicy = .skip ∧ skipStart.pc.toNat ≤ 256 ∧
      ∀ x : Nat, skipStart.mem.read x = 0x00) ∧
    (skipStart.setPc 256).pc.toNat = 256 := ⟨⟨rfl, rfl, by decide, fun _ => rfl⟩, by decide⟩

/-! The invariant -/

/-- A `RUNNING` state in the middle of a run: a program at the top, `FL` written. -/
def midRun : State := lastLdi.setFl 0x04

theorem witness_StepKeepsTheInvariant : midRun.Inv ∧ ∃ t, step midRun = .next t :=
  ⟨⟨by decide, by decide, by decide, by decide, nofun⟩, _, rfl⟩

/-- A `FAULTED` state: the CALL at 254 of rule R205. -/
def stopped : State := (State.reset.setPc 254).raise ⟨.returnAddressOutOfRange, 256⟩

theorem witness_faulted_state_meets_the_invariant : stopped.Inv :=
  ⟨by decide, by decide, by decide, by decide, by rintro f ⟨⟩; exact ⟨⟨rfl, rfl⟩, rfl⟩⟩

/-- Two sessions, and a run of both kinds among the operations of each. -/
theorem witness_HostOperationsKeepTheInvariant :
    ({ core := midRun, loadOpen := false } : HostSession).Inv ∧
    ({ core := State.reset.setReg 0 5, loadOpen := true } : HostSession).Inv ∧
    (∃ g, HostDoesAll [.readOut, .run, .readState] { core := midRun, loadOpen := false } g) ∧
    ∃ g, HostDoesAll [.load [0x01], .run, .step] { core := State.reset.setReg 0 5, loadOpen := true } g :=
  ⟨⟨witness_StepKeepsTheInvariant.1, nofun⟩,
    ⟨⟨by decide, by decide, by decide, by decide, nofun⟩, fun _ => ⟨rfl, rfl, rfl⟩⟩,
    ⟨_, _, _, rfl, _, _, ⟨_, _, ⟨rfl, rfl, 2, rfl⟩, rfl⟩, _, _, rfl, rfl⟩,
    ⟨_, _, _, rfl, _, _, ⟨_, _, ⟨rfl, rfl, 1, rfl⟩, rfl⟩, _, _, rfl, rfl⟩⟩

theorem witness_CanonicalMemoryIsUnique : Memory.wf [(0, 1), (255, 2)] := by decide

/-! Reset and the host interface -/

/-- The session of a core that may not load any more. -/
def closed (s : State) : HostSession := { core := s, loadOpen := false }

/-- A reset session with `MAX_STEPS = k`, and one without; nothing is loaded. -/
def freshWith (k : Option Nat) : HostSession := { core := { State.reset with maxSteps := k }, loadOpen := true }

/-- Two sessions that differ, with the same parameters; and a stopped one with operations that are no reset. -/
theorem witness_OnlyResetLeavesAStoppedCore :
    (closed midRun).core.config = (closed stopped).core.config ∧
    (closed stopped).Inv ∧ stopped.run ≠ .running ∧
    ∀ d, HostOp.reset d ∉ [HostOp.load [1], HostOp.step, HostOp.run, HostOp.readState] :=
  ⟨rfl, ⟨witness_faulted_state_meets_the_invariant, nofun⟩, by decide, fun _ => by simp⟩

/-- An empty image, one of exactly 256 bytes and one of 257. -/
theorem witness_LoadWritesTheImageOrNothing :
    ([] : List Byte).length ≤ 256 ∧ (List.replicate 256 (1 : Byte)).length ≤ 256 ∧
    256 < (List.replicate 257 (1 : Byte)).length :=
  ⟨by decide, List.length_replicate.le, by rw [List.length_replicate]; decide⟩

/-- Any draw of a reset; it is not read under `RESET_FILL = ZERO`. -/
def zeroDraw : ResetDraw := { regs := Vector.replicate 6 0, cells := Vector.replicate 256 0 }

/-- Operations that end the right to load (a load, a step, a run) and one that does not (a run of no steps). -/
theorem witness_LoadIsAllowedOnceAfterReset :
    (∃ g, HostDoesAll [.load []] (.afterReset Config.default zeroDraw) g) ∧
    (∃ g, HostDoesAll [.step] (.afterReset Config.default zeroDraw) g) ∧
    (∃ g, HostDoesAll [.run] (.afterReset Config.default zeroDraw) g) ∧
    (∃ g, HostDoesAll [.run, .readOut] (.afterReset { Config.default with maxSteps := some 0 } zeroDraw) g) ∧
    (∀ e, HostOp.reset e ∉ [HostOp.run, HostOp.readOut]) ∧ Config.default.maxSteps ≠ some 0 ∧
    Config.default.resetFill = .zero :=
  ⟨⟨_, _, _, rfl, rfl⟩, ⟨_, _, _, rfl, rfl⟩, ⟨_, _, _, ⟨_, _, ⟨rfl, rfl, 1, rfl⟩, rfl⟩, rfl⟩,
    ⟨_, _, _, rfl, _, _, rfl, rfl⟩, fun _ => by simp, by decide, rfl⟩

/-- A limit that is reached, one that is not, a limit of 0, no limit, and a stopped core. -/
theorem witness_HostRunStepsToTheEndOrTheLimit :
    (midRun.Inv ∧ (closed midRun).core.run = .running ∧ (closed midRun).core.maxSteps = none) ∧
    ((freshWith (some 0)).core.run = .running ∧ (freshWith (some 0)).core.maxSteps = some 0) ∧
    ((hostRunFor 1 (closed midRun)).1 = .runResult .stepLimit) ∧
    ((hostRunFor 2 (closed midRun)).1 = .runResult (.fault .memoryOutOfRange 256)) ∧
    stopped.Inv ∧ stopped.run ≠ .running :=
  ⟨⟨witness_StepKeepsTheInvariant.1, rfl, rfl⟩, ⟨rfl, rfl⟩, by decide, by decide,
    witness_faulted_state_meets_the_invariant, by decide⟩

/-- Rule R233 with `MAX_STEPS = 0`: a run took no step, so the load after it acts (rule R240). -/
theorem test_load_after_run_of_no_steps :
    (hostLoad [1] (hostRunFor 0 (freshWith (some 0))).2).1 = .ok ∧
      (hostLoad [1] (hostRunFor 1 (freshWith (some 1))).2).1 = .refused := by decide

/-- P6's first two steps: the host's run of LDI R0, 1 with nothing above it ends in UnknownOpcode(0). -/
theorem test_run_P6 :
    HostRun { core := State.at .reset 0 [0x82, 0, 1], loadOpen := false }
      (.runResult (.fault .unknownOpcode 0))
      { core := (((State.at .reset 0 [0x82, 0, 1]).setReg 0 1).setPc 3).raise ⟨.unknownOpcode, 0⟩
        loadOpen := false } := ⟨_, _, ⟨rfl, rfl, 2, rfl⟩, rfl⟩

theorem witness_HostStepAnswersTheNewRunState : midRun.run = .running ∧ stopped.run ≠ .running := by decide

/-- A run that ends at HLT and one that ends in a fault. -/
theorem witness_RunReportsHowItEnded :
    (∃ t, RunEnds (State.at .reset 255 [0x01]) .halted t) ∧
    ∃ t, RunEnds (State.at .reset 254 [0x50, 1]) (.fault .returnAddressOutOfRange 256) t :=
  ⟨⟨_, rfl, rfl, 1, rfl⟩, _, rfl, rfl, 1, rfl⟩

/-- JMP R7 to itself at 0xF4: it never ends. -/
def selfJump : State := State.at .reset 0xF4 [0x54, 7]

theorem witness_RunsComposeAcrossTheStepLimit :
    selfJump.Inv ∧ (runFor 2 selfJump).1 = .stepLimit ∧
    (runFor 0 (State.reset.setRun .halted)).1 ≠ .stepLimit :=
  ⟨⟨by decide, by decide, by decide, by decide, nofun⟩, by decide, by decide⟩

theorem witness_PlacedWordRunsNext :
    (State.reset.setPc 253).pc.toNat ≤ 253 ∧ decodeTableWord 24 0x0700A7 = some (.cmp 0 7) := by decide

end Sys2Proof.Tests
end

section
/-! SUPPORT. The bytes an instruction stands on, and what an instruction that does not fault leaves
unchanged: the frame of every row, said once. -/

namespace Sys2Proof.Machine

open Sys2Proof.Machine.State (reg_setReg sp_setReg fl_setReg reg_setSp reg_setFl)

variable {i : Instr} {s t : State}

/-! ## The bytes at `pc` -/

/-- The byte `k` cells above `pc` is byte `k` of the encoding of the instruction that stands there. -/
theorem StandsAtPc.byteAtPc_eq {k : Nat} {v : Byte} (h : StandsAtPc s i) (hk : (encode i)[k]? = some v) :
    s.byteAtPc k = v := by
  have hlt : k < (encode i).length := (List.getElem?_eq_some_iff.mp hk).1
  rw [StandsAtPc.eq_def] at h
  rw [h, List.getElem?_map, List.getElem?_range hlt, Option.map_some] at hk
  exact Option.some.inj hk

theorem StandsAtPc.opcodeAtPc_eq {v : Byte} (h : StandsAtPc s i) (hv : (encode i)[0]? = some v) :
    s.opcodeAtPc = v := h.byteAtPc_eq hv

/-! ## What the rows write -/

/-- The register operand a row writes, for the rows that write a general register (rule R20). -/
def destination : Instr → Option Byte
  | .ldi a _ | .add a _ | .mul a _ | .pop a => some a
  | _ => none

/-- The rows that move `SP` (rule R25). -/
def movesSp : Instr → Bool
  | .push _ | .pop _ | .call _ | .ret => true
  | _ => false

/-- The frame of a row: what it leaves as it was. `SP` and `FL` are cells of their own only under
`DECOUPLED` (rule R23). -/
structure Frame (s t : State) (i : Instr) : Prop where
  run : t.run = if i = .hlt then .halted else s.run
  faultRecord : t.faultRecord = s.faultRecord
  config : t.config = s.config
  mem : t.mem = s.mem ∨ ∃ a v : Byte, t.mem = s.mem.write a.toNat v
  out : (∀ a, i ≠ .prn a) → t.out = s.out
  reg : s.regAlias = .decoupled → ∀ k : Fin 8, destination i ≠ some (BitVec.ofNat 8 k.val) →
    t.reg k = s.reg k
  sp : s.regAlias = .decoupled → movesSp i = false → t.sp = s.sp
  fl : s.regAlias = .decoupled → (∀ a b, i ≠ .cmp a b) → t.fl = s.fl

/-- A write of `R[a]` changes no register whose number `a` is not. -/
theorem reg_setReg_of_ne {a v : Byte} {k : Fin 8} (ha : a.toNat < 8) (h : a ≠ BitVec.ofNat 8 k.val) :
    (s.setReg ⟨a.toNat, ha⟩ v).reg k = s.reg k := by
  rw [reg_setReg, if_neg fun e => h ((index_eq_iff k.isLt ha).mp e.symm)]

/-- Every row keeps its frame. -/
theorem Effect.frame (h : Effect s t i) : Frame s t i := by
  cases i with
  | hlt => subst h; constructor <;> simp
  | ret => obtain ⟨-, rfl⟩ := h; constructor <;> simp +contextual [movesSp, reg_setSp]
  | push a =>
    obtain ⟨_, -, rfl⟩ := h
    constructor
    case mem => exact .inr ⟨_, _, rfl⟩
    all_goals simp +contextual [movesSp, reg_setSp]
  | pop a =>
    obtain ⟨ha, -, rfl⟩ := h
    constructor <;>
      simp +contextual [destination, movesSp, reg_setSp, reg_setReg_of_ne ha, fl_setReg]
  | prn a => obtain ⟨_, rfl⟩ := h; constructor <;> simp
  | call a =>
    obtain ⟨_, -, -, rfl⟩ := h
    constructor
    case mem => exact .inr ⟨_, _, rfl⟩
    all_goals simp +contextual [movesSp, reg_setSp]
  | jmp a => obtain ⟨_, rfl⟩ := h; constructor <;> simp
  | jeq a => obtain ⟨-, _, rfl⟩ | ⟨-, rfl⟩ := h <;> constructor <;> simp
  | ldi a b =>
    obtain ⟨ha, rfl⟩ := h
    constructor <;> simp +contextual [destination, reg_setReg_of_ne ha, sp_setReg, fl_setReg]
  | add a b =>
    obtain ⟨ha, _, rfl⟩ := h
    constructor <;> simp +contextual [destination, reg_setReg_of_ne ha, sp_setReg, fl_setReg]
  | mul a b =>
    obtain ⟨ha, _, rfl⟩ := h
    constructor <;> simp +contextual [destination, reg_setReg_of_ne ha, sp_setReg, fl_setReg]
  | cmp a b => obtain ⟨_, _, rfl⟩ := h; constructor <;> simp +contextual [reg_setFl]

/-- The row of rule R27's table: the new `pc` of an instruction that does not fault. CALL's target is read
after the push (rule R181), JMP's and JEQ's too, since they write no register. -/
def PcRow (s t : State) : Instr → Prop
  | .hlt => t.pc = s.pc
  | .ret => t.pc = zext9 (s.mem.read s.sp.toNat)
  | .call a | .jmp a => ∃ ha : a.toNat < 8, t.pc = zext9 (t.reg ⟨a.toNat, ha⟩)
  | .jeq a => (s.fl = flagE ∧ ∃ ha : a.toNat < 8, t.pc = zext9 (t.reg ⟨a.toNat, ha⟩)) ∨
      (s.fl ≠ flagE ∧ t.pc.toNat = s.pc.toNat + 2)
  | .push _ | .pop _ | .prn _ => t.pc.toNat = s.pc.toNat + 2
  | .ldi _ _ | .add _ _ | .mul _ _ | .cmp _ _ => t.pc.toNat = s.pc.toNat + 3

/-- From a `pc` inside memory every row sets `pc` as the table says; no advance wraps (rule R28). -/
theorem Effect.pcRow (h : Effect s t i) (hp : s.pc.toNat ≤ 255) : PcRow s t i := by
  have advance {u : State} {k : Nat} (hu : u.pc = s.pc) (hk : k ≤ 3) :
      (u.advance k).pc.toNat = s.pc.toNat + k := by
    rw [u.advance_pc_toNat k (hu ▸ hp) hk, hu]
  cases i with
  | hlt => subst h; rfl
  | ret => obtain ⟨-, rfl⟩ := h; rfl
  | push a => obtain ⟨_, -, rfl⟩ := h; exact advance (by simp) (by decide)
  | pop a => obtain ⟨_, -, rfl⟩ := h; exact advance (by simp) (by decide)
  | prn a => obtain ⟨_, rfl⟩ := h; exact advance rfl (by decide)
  | call a => obtain ⟨ha, -, -, rfl⟩ := h; exact ⟨ha, rfl⟩
  | jmp a => obtain ⟨ha, rfl⟩ := h; exact ⟨ha, rfl⟩
  | jeq a =>
    obtain ⟨hf, ha, rfl⟩ | ⟨hf, rfl⟩ := h
    · exact .inl ⟨hf, ha, rfl⟩
    · exact .inr ⟨hf, advance rfl (by decide)⟩
  | ldi a b => obtain ⟨_, rfl⟩ := h; exact advance rfl (by decide)
  | add a b => obtain ⟨_, _, rfl⟩ := h; exact advance rfl (by decide)
  | mul a b => obtain ⟨_, _, rfl⟩ := h; exact advance rfl (by decide)
  | cmp a b => obtain ⟨_, _, rfl⟩ := h; exact advance (by simp) (by decide)

/-- A row goes to one of 0..258: it stays, advances by at most three, or jumps to a byte. -/
theorem PcRow.pc_le (h : PcRow s t i) (hp : s.pc.toNat ≤ 255) : t.pc.toNat ≤ 258 := by
  have jump {v : Byte} (ht : t.pc = zext9 v) : t.pc.toNat ≤ 258 := by
    rw [ht, zext9_toNat]
    have := v.isLt
    omega
  have advance {k : Nat} (ht : t.pc.toNat = s.pc.toNat + k) (hk : k ≤ 3) : t.pc.toNat ≤ 258 := by omega
  cases i
  case hlt => exact advance (k := 0) (congrArg BitVec.toNat h) (by decide)
  case ret => exact jump h
  case call a | jmp a => obtain ⟨_, h⟩ := h; exact jump h
  case jeq a =>
    obtain ⟨-, _, h⟩ | ⟨-, h⟩ := h
    · exact jump h
    · exact advance h (by decide)
  case push a | pop a | prn a => exact advance h (by decide)
  case ldi a b | add a b | mul a b | cmp a b => exact advance h (by decide)

/-! ## The invariant, one lemma for each way a step ends -/

theorem compareFlags_eq_flag (x y : Byte) :
    compareFlags x y = flagE ∨ compareFlags x y = flagG ∨ compareFlags x y = flagL :=
  (compareFlags_cases x y).imp And.right (Or.imp And.right And.right)

/-- Under `DECOUPLED` a row leaves `FL` or puts one of CMP's three values there (rule R26). -/
theorem Effect.fl_cases (h : Effect s t i) (hd : s.regAlias = .decoupled) :
    t.fl = s.fl ∨ t.fl = flagE ∨ t.fl = flagG ∨ t.fl = flagL := by
  by_cases hc : ∃ a b, i = .cmp a b
  · obtain ⟨a, b, rfl⟩ := hc
    obtain ⟨ha, hb, rfl⟩ := h
    rw [State.fl_advance, State.fl_setFl]
    exact .inr (compareFlags_eq_flag _ _)
  · exact .inl (h.frame.fl hd fun a b e => hc ⟨a, b, e⟩)

theorem Effect.mem_wf (h : Effect s t i) (hm : s.mem.wf) : t.mem.wf := by
  obtain he | ⟨a, v, he⟩ := h.frame.mem <;> rw [he]
  · exact hm
  · exact Memory.wf_write hm a.isLt v

theorem regAlias_eq_of_config_eq (h : t.config = s.config) : t.regAlias = s.regAlias :=
  congrArg Config.regAlias h

/-- A `RUNNING` state that meets the invariant has no fault record. -/
theorem State.Inv.faultRecord_eq_none (h : s.Inv) (hr : s.run = .running) : s.faultRecord = none := by
  rw [← Option.not_isSome_iff_eq_none, h.fault_iff, hr]
  decide

/-- Every fault a step takes from a `pc` of at most 258 is one the table of rule R200 allows. -/
theorem StepRaise.legal {r : Raise} (h : StepRaise s r) (hp : s.pc.toNat ≤ 258) :
    FaultRecord.Legal ⟨r.cause, r.info, s.pc⟩ := by
  obtain ⟨rfl, hgt⟩ | ⟨rfl, -⟩ | ⟨rfl, ho⟩ | ⟨i, hi, hn, hraise⟩ := h
  · exact ⟨hgt, hp⟩
  · exact ⟨le_rfl, (by decide : 256 ≤ 258)⟩
  · exact ⟨s.opcodeAtPc.isLt, fun op hop e => ho (BitVec.eq_of_toNat_eq e ▸ hop)⟩
  · obtain ⟨cause, info⟩ := r
    obtain ⟨rfl, hlo, hhi⟩ | ⟨rfl, hinfo⟩ | ⟨rfl, rfl, hgt, a, rfl⟩ := hraise
    · exact ⟨hlo, hhi⟩
    · exact hinfo
    · have hpc : s.pc.toNat = 254 := by
        rw [(standsAtPc_call hi).1] at hn
        have : operandCount Opcode.call = 1 := rfl
        omega
      exact ⟨by simp only [hpc], BitVec.eq_of_toNat_eq hpc⟩

theorem State.Inv.raise {r : Raise} (h : s.Inv) (hr : StepRaise s r) : (s.raise r).Inv where
  mem_wf := h.mem_wf
  pc_le := h.pc_le
  fl_legal := h.fl_legal
  fault_iff := by simp
  fault_legal := by
    rintro f ⟨⟩
    exact ⟨hr.legal h.pc_le, rfl⟩

theorem State.Inv.effect (h : s.Inv) (hr : s.run = .running) (hp : s.pc.toNat ≤ 255)
    (he : Effect s t i) : t.Inv := by
  have hfr : t.faultRecord = none := he.frame.faultRecord.trans (h.faultRecord_eq_none hr)
  refine ⟨he.mem_wf h.mem_wf, (he.pcRow hp).pc_le hp, fun hd => ?_, ?_, fun f hf => ?_⟩
  · have hs : s.regAlias = .decoupled := (regAlias_eq_of_config_eq he.frame.config).symm.trans hd
    obtain hfl | hfl := he.fl_cases hs
    · rw [hfl]; exact h.fl_legal hs
    · exact .inr hfl
  · rw [hfr, he.frame.run, hr]
    split <;> simp
  · rw [hfr] at hf
    cases hf

theorem State.Inv.advance_one (h : s.Inv) (hr : s.run = .running) (hp : s.pc.toNat ≤ 255) :
    (s.advance 1).Inv where
  mem_wf := h.mem_wf
  pc_le := by rw [State.advance_pc_toNat s 1 hp (by decide)]; omega
  fl_legal := h.fl_legal
  fault_iff := h.fault_iff
  fault_legal f hf := by
    rw [State.advance_faultRecord, h.faultRecord_eq_none hr] at hf
    cases hf

end Sys2Proof.Machine
end

section
/-! PROOFS. The invariant of the machine: every step keeps it, every reset meets it. -/

namespace Sys2Proof.Proofs

open Sys2Proof.Machine

/-- Settles O44: a step faults, runs a row or skips an opcode, and each way keeps the invariant. -/
theorem stepKeepsTheInvariant : Obligations.StepKeepsTheInvariant := by
  intro s t hs h
  obtain ⟨hr, ⟨r, hraise, rfl⟩ | ⟨hp, i, -, he⟩ | ⟨hp, -, -, rfl⟩⟩ := step_inv h
  · exact hs.raise hraise
  · exact hs.effect hr hp he
  · exact hs.advance_one hr hp

/-- Settles O45: memory is canonical after either fill, and the rest is rule R32's table. -/
theorem resetMeetsTheInvariant : Obligations.ResetMeetsTheInvariant := by
  refine ⟨⟨Memory.wf_reset, by decide, by decide, by decide, nofun⟩, fun c d =>
    ⟨?_, fun _ => ⟨rfl, rfl, rfl⟩⟩⟩
  have hfl : (resetWith c d).fl = Config.flReset := by rcases c with ⟨_, _ | _, _, _⟩ <;> rfl
  exact ⟨Memory.wf_resetMemory c d, Nat.zero_le _, fun _ => .inl hfl, iff_of_false nofun nofun, nofun⟩

end Sys2Proof.Proofs
end

section
/-! PROOFS. What a single step does to `pc`, the run state and the parameters. -/

namespace Sys2Proof.Proofs

open Sys2Proof.Machine

/-- Settles O10: the instruction at `pc` fixes the row of rule R27's table, and its effect the new `pc`. -/
theorem programCounterFollowsTheTable : Obligations.ProgramCounterFollowsTheTable := by
  intro s t h hrun
  obtain ⟨-, ⟨r, -, rfl⟩ | ⟨hp, i, hi, he⟩ | ⟨hp, ho, -, rfl⟩⟩ := step_inv h
  · exact absurd rfl hrun
  · have hrow := he.pcRow hp
    have jump {a : Byte} (ha : a.toNat < 8) (hb : s.byteAtPc 1 = a)
        (ht : t.pc = zext9 (t.reg ⟨a.toNat, ha⟩)) :
        ∃ k : Fin 8, (s.byteAtPc 1).toNat = k.val ∧ t.pc.toNat = (t.reg k).toNat :=
      ⟨⟨a.toNat, ha⟩, by rw [hb], by rw [ht, zext9_toNat]⟩
    cases i
    case hlt => simpa [hi.opcodeAtPc_eq rfl, Opcode.table, PcRow] using hrow
    case ret =>
      have ht : t.pc = zext9 (s.mem.read s.sp.toNat) := hrow
      simp [hi.opcodeAtPc_eq rfl, Opcode.table, ht]
    case call a | jmp a =>
      obtain ⟨ha, ht⟩ := hrow
      simpa [hi.opcodeAtPc_eq rfl, Opcode.table] using jump ha (hi.byteAtPc_eq rfl) ht
    case jeq a =>
      obtain ⟨hf, ha, ht⟩ | ⟨hf, ht⟩ := hrow
      · simpa [hi.opcodeAtPc_eq rfl, Opcode.table, hf] using jump ha (hi.byteAtPc_eq rfl) ht
      · have hf' : s.fl ≠ 1#8 := hf
        simpa [hi.opcodeAtPc_eq rfl, Opcode.table, hf'] using ht
    case push a | pop a | prn a => simpa [hi.opcodeAtPc_eq rfl, Opcode.table, PcRow] using hrow
    case ldi a b | add a b | mul a b | cmp a b => simpa [hi.opcodeAtPc_eq rfl, Opcode.table, PcRow] using hrow
  · rw [State.advance_pc_toNat s 1 hp (by decide)]
    revert ho
    simp +contextual [Opcode.table]

/-- Settles O36: no fault and no row but HLT's ends in `HALTED`. -/
theorem onlyHltEntersHalted : Obligations.OnlyHltEntersHalted := by
  intro s t h ht
  obtain ⟨hr, ⟨r, -, rfl⟩ | ⟨hp, i, hi, he⟩ | ⟨-, -, -, rfl⟩⟩ := step_inv h
  · cases ht
  · rw [he.frame.run, hr] at ht
    obtain rfl : i = .hlt := by by_contra hne; rw [if_neg hne] at ht; cases ht
    exact ⟨hp, hi.opcodeAtPc_eq rfl, he⟩
  · rw [State.advance_run, hr] at ht
    cases ht

/-- Settles O42: a fault, a row and a skip all leave the parameters. -/
theorem parametersAreFixedForARun : Obligations.ParametersAreFixedForARun := by
  intro s t h
  obtain ⟨-, ⟨r, -, rfl⟩ | ⟨-, i, -, he⟩ | ⟨-, -, -, rfl⟩⟩ := step_inv h
  · rfl
  · exact he.frame.config
  · rfl

end Sys2Proof.Proofs
end

section
/-! SUPPORT. A change of the state that no instruction reads passes through a step: one lemma for each
shared operation, then the rows, then the step. -/

namespace Sys2Proof.Machine

/-- `f` changes only what the step does not look at (`OUT`, or `FL` where it is a cell of its own), and every
write of a handler but CMP's passes through it. -/
structure Unread (f : State → State) : Prop where
  run (s : State) : (f s).run = s.run
  pc (s : State) : (f s).pc = s.pc
  mem (s : State) : (f s).mem = s.mem
  policy (s : State) : (f s).unknownOpcodePolicy = s.unknownOpcodePolicy
  reg (s : State) (k : Fin 8) : (f s).reg k = s.reg k
  sp (s : State) : (f s).sp = s.sp
  setReg (s : State) (k : Fin 8) (v : Byte) : (f s).setReg k v = f (s.setReg k v)
  setSp (s : State) (v : Byte) : (f s).setSp v = f (s.setSp v)
  setPc (s : State) (p : PcWord) : (f s).setPc p = f (s.setPc p)
  setMem (s : State) (m : Memory) : (f s).setMem m = f (s.setMem m)
  emit (s : State) (v : Byte) : (f s).emit v = f (s.emit v)
  setRun (s : State) (r : RunState) : (f s).setRun r = f (s.setRun r)
  raise (s : State) (r : Raise) : (f s).raise r = f (s.raise r)

/-! ## Checked computations under a map of the state -/

theorem map_bind_checked {α : Type} (f : State → State) (c : Checked α) (g : α → Checked State) :
    (c >>= g).map f = c >>= fun x => (g x).map f := by
  cases c <;> rfl

theorem bind_map_checked (f : State → State) (c : Checked State) (g : State → Checked State) :
    c.map f >>= g = c >>= fun t => g (f t) := by
  cases c <;> rfl

theorem map_ok_checked (f : State → State) (t : State) :
    (Except.ok t : Checked State).map f = .ok (f t) := rfl

/-! ## The shared operations -/

section
variable {f : State → State} (hf : Unread f) (s : State)
include hf

theorem Unread.advance (k : Nat) : (f s).advance k = f (s.advance k) := by
  rw [State.advance, hf.setPc, hf.pc, State.advance]

theorem Unread.memRead_eq (a : Nat) : memRead a (f s) = memRead a s := by
  rw [memRead, hf.mem, memRead]

theorem Unread.memWrite_eq_map (a : Nat) (v : Byte) : memWrite a v (f s) = (memWrite a v s).map f := by
  unfold memWrite
  split
  · rfl
  · rw [hf.mem, hf.setMem, map_ok_checked]

theorem Unread.spDown_eq_map : spDown (f s) = (spDown s).map f := by
  unfold spDown
  rw [hf.sp]
  split
  · rfl
  · rw [hf.setSp, map_ok_checked]

theorem Unread.spUp_eq_map : spUp (f s) = (spUp s).map f := by
  unfold spUp
  rw [hf.sp]
  split
  · rfl
  · rw [hf.setSp, map_ok_checked]

theorem Unread.returnAddress_eq : returnAddress (f s) = returnAddress s := by
  rw [returnAddress, hf.pc, returnAddress]

theorem Unread.finish_eq_map (body : Checked State) :
    finish (f s) (body.map f) = mapNext f (finish s body) := by
  cases body with
  | ok t => rfl
  | error r => exact congrArg Host.Outcome.next (hf.raise s r)

theorem Unread.fetch_eq : fetch (f s) = fetch s := by
  have operands (n a : Nat) : readBytes (f s) a n = readBytes s a n := by
    induction n generalizing a with
    | zero => rfl
    | succ n ih => simp only [readBytes, hf.memRead_eq, ih]
  simp only [fetch, hf.pc, hf.memRead_eq, operands]

/-! ## The rows and the step -/

/-- What no row reads passes through it; JEQ reads `FL`, and a CMP with both indices in range writes it. -/
theorem Unread.exec_eq_map {i : Instr} (hjeq : ∀ a, i = .jeq a → (f s).fl = s.fl)
    (hcmp : ∀ a b, i = .cmp a b → a.toNat < 8 → b.toNat < 8 → ∀ v, (f s).setFl v = f (s.setFl v)) :
    exec i (f s) = mapNext f (exec i s) := by
  cases i
  case hlt => rw [exec_hlt, exec_hlt, hf.setRun, mapNext]
  case jeq a =>
    simp only [exec, execJeq, ← hf.finish_eq_map, hjeq a rfl, apply_ite (Except.map f), map_bind_checked,
      pure_eq_ok, map_ok_checked, hf.reg, hf.setPc, hf.advance]
  case cmp a b =>
    by_cases ha : a.toNat < 8
    · by_cases hb : b.toNat < 8
      · rw [exec_cmp _ ha hb, exec_cmp _ ha hb, hcmp a b rfl ha hb, hf.reg, hf.reg, hf.advance, mapNext]
      · rw [exec_cmp_badSecond ha (not_lt.mp hb), exec_cmp_badSecond ha (not_lt.mp hb), hf.raise, mapNext]
    · rw [exec_cmp_badFirst (not_lt.mp ha), exec_cmp_badFirst (not_lt.mp ha), hf.raise, mapNext]
  all_goals
    simp only [exec, execRet, execPush, execPop, execPrn, execCall, execJmp, execLdi, execAdd, execMul,
      aluBody, aluApply, ← hf.finish_eq_map, map_bind_checked, bind_map_checked, ok_bind, pure_eq_ok,
      map_ok_checked, hf.reg, hf.sp, hf.setReg, hf.setPc, hf.emit, hf.advance, hf.memRead_eq,
      hf.memWrite_eq_map, hf.spDown_eq_map, hf.spUp_eq_map, hf.returnAddress_eq]

theorem Unread.execUnknown_eq_map (op : Byte) :
    execUnknown op (f s) = mapNext f (execUnknown op s) := by
  cases hp : s.unknownOpcodePolicy with
  | fault =>
    rw [execUnknown_fault op hp, execUnknown_fault op ((hf.policy s).trans hp), hf.raise, mapNext]
  | skip =>
    rw [execUnknown_skip op hp, execUnknown_skip op ((hf.policy s).trans hp), hf.advance, mapNext]

end

/-- The opcode byte a fetch answers is the one at `pc`. -/
theorem opcode_eq_of_fetch {s : State} {op : Byte} {opnds : List Byte} (h : fetch s = .ok (op, opnds)) :
    op = s.opcodeAtPc := by
  obtain ⟨v, hv, h⟩ := bind_eq_ok h
  obtain rfl : v = s.opcodeAtPc := by
    unfold memRead at hv
    split at hv
    · cases hv
    · cases hv; rfl
  split at h
  · cases h; rfl
  · obtain ⟨vs, -, h⟩ := bind_eq_ok h
    cases h; rfl

/-- What the step does not look at passes through it, or both states run the instruction at `pc`. -/
theorem Unread.step_cases {f : State → State} (hf : Unread f) (s : State) :
    step (f s) = mapNext f (step s) ∨
      ∃ i, (encode i)[0]? = some s.opcodeAtPc ∧ step s = exec i s ∧ step (f s) = exec i (f s) := by
  cases hr : s.run with
  | halted => left; simp only [step, hf.run, hr, mapNext]
  | faulted => left; simp only [step, hf.run, hr, mapNext]
  | running =>
    rw [step_of_running hr, step_of_running ((hf.run s).trans hr)]
    have hfetch := hf.fetch_eq s
    cases hs : fetch s with
    | error r =>
      left
      rw [stepRunning_of_error hs, stepRunning_of_error (hfetch.trans hs), hf.raise, mapNext]
    | ok p =>
      obtain ⟨op, opnds⟩ := p
      cases hd : decodeRow op opnds with
      | none =>
        left
        rw [stepRunning_of_unknown hs hd, stepRunning_of_unknown (hfetch.trans hs) hd,
          hf.execUnknown_eq_map]
      | some i =>
        refine .inr ⟨i, ?_, stepRunning_of_row hs hd, stepRunning_of_row (hfetch.trans hs) hd⟩
        rw [decodeRow_eq_some hd, opcode_eq_of_fetch hs, List.getElem?_cons_zero]

/-! ## The two changes -/

/-- Nothing reads the output emitted earlier, and `OUT` is only appended to (rule R31). -/
theorem unread_withEarlierOutput (o : List Byte) : Unread (·.withEarlierOutput o) where
  run _ := rfl
  pc _ := rfl
  mem _ := rfl
  policy _ := rfl
  reg _ _ := rfl
  sp _ := rfl
  setReg _ _ _ := rfl
  setSp s _ := by simp only [State.setSp, State.withEarlierOutput]; split <;> rfl
  setPc _ _ := rfl
  setMem _ _ := rfl
  emit s v := by simp only [State.emit, State.withEarlierOutput, List.append_assoc]
  setRun _ _ := rfl
  raise _ _ := rfl

theorem setFl_withEarlierOutput (s : State) (o : List Byte) (v : Byte) :
    (s.withEarlierOutput o).setFl v = (s.setFl v).withEarlierOutput o := by
  simp only [State.setFl, State.withEarlierOutput]
  split <;> rfl

/-- The cells with `x` in `FL`'s, where `FL` has one of its own (rule R23). -/
def SpecialCells.withFl (x : Byte) : SpecialCells → SpecialCells
  | .decoupled sp _ => .decoupled sp x
  | .aliased => .aliased

/-- The state with `x` in `FL`'s own cell; under `ALIASED` the state itself. -/
def State.withOwnFl (s : State) (x : Byte) : State := { s with special := s.special.withFl x }

theorem withOwnFl_of_decoupled {s : State} (h : s.regAlias = .decoupled) (x : Byte) :
    s.withOwnFl x = s.setFl x := by
  unfold State.regAlias at h
  unfold State.withOwnFl State.setFl
  cases hs : s.special with
  | decoupled sp fl => rfl
  | aliased => rw [hs] at h; cases h

/-- A write of all of `FL` leaves nothing of the value before it. -/
theorem setFl_withOwnFl (s : State) (x v : Byte) (h : s.regAlias = .decoupled) :
    (s.withOwnFl x).setFl v = s.setFl v := by
  unfold State.regAlias at h
  unfold State.withOwnFl State.setFl
  cases hs : s.special with
  | decoupled sp fl => rfl
  | aliased => rw [hs] at h; cases h

theorem unread_withOwnFl (x : Byte) : Unread (·.withOwnFl x) where
  run _ := rfl
  pc _ := rfl
  mem _ := rfl
  policy _ := rfl
  reg _ _ := rfl
  sp s := by unfold State.withOwnFl State.sp; cases s.special <;> rfl
  setReg _ _ _ := rfl
  setSp s v := by
    unfold State.withOwnFl State.setSp
    cases h : s.special <;> simp [h, State.setReg, SpecialCells.withFl]
  setPc _ _ := rfl
  setMem _ _ := rfl
  emit _ _ := rfl
  setRun _ _ := rfl
  raise _ _ := rfl

end Sys2Proof.Machine
end

section
/-! PROOFS. The cells of the state: who reads and who writes each one. -/

namespace Sys2Proof.Proofs

open Sys2Proof.Machine

/-- An instruction with a destination register is LDI, ADD, MUL or POP, and its first operand names it. -/
theorem opcode_of_destination {i : Instr} {s : State} {a : Byte} (hi : StandsAtPc s i)
    (hd : destination i = some a) :
    s.opcodeAtPc ∈ ([0x82, 0xA0, 0xA2, 0x46] : List Byte) ∧ s.byteAtPc 1 = a := by
  cases i
  case ldi | add | mul | pop =>
    cases hd
    exact ⟨by rw [hi.opcodeAtPc_eq rfl]; decide, hi.byteAtPc_eq rfl⟩
  all_goals cases hd

theorem opcode_of_movesSp {i : Instr} {s : State} (hi : StandsAtPc s i) (hm : movesSp i = true) :
    s.opcodeAtPc ∈ ([0x45, 0x46, 0x50, 0x11] : List Byte) := by
  cases i
  case push | pop | call | ret => rw [hi.opcodeAtPc_eq rfl]; decide
  all_goals cases hm

/-- Settles O39: what is outside the frame of the instruction at `pc` is its opcode's to write. -/
theorem decoupledCellsAreSeparate : Obligations.DecoupledCellsAreSeparate := by
  intro s t h hd
  obtain ⟨-, ⟨r, -, rfl⟩ | ⟨-, i, hi, he⟩ | ⟨-, -, -, rfl⟩⟩ := step_inv h
  · exact ⟨fun k hk => absurd rfl hk, absurd rfl, absurd rfl⟩
  · refine ⟨fun k hk => ?_, fun hsp => ?_, fun hfl => ?_⟩
    · have hdest : destination i = some (BitVec.ofNat 8 k.val) := by
        by_contra hne
        exact hk (he.frame.reg hd k hne)
      obtain ⟨hop, hbyte⟩ := opcode_of_destination hi hdest
      exact ⟨hop, by rw [hbyte, BitVec.toNat_ofNat]; omega⟩
    · refine opcode_of_movesSp hi ?_
      by_contra hne
      exact hsp (he.frame.sp hd (Bool.eq_false_of_not_eq_true hne))
    · by_contra hne
      exact hfl (he.frame.fl hd fun a b e => hne (hi.opcodeAtPc_eq (e ▸ rfl)))
  · exact ⟨fun k hk => absurd rfl hk, absurd rfl, absurd rfl⟩

/-- Settles O37: PRN alone is outside the frame of `OUT`, and earlier output passes through a step. -/
theorem outputIsAppendedByPrnAndNeverRead : Obligations.OutputIsAppendedByPrnAndNeverRead := by
  refine ⟨fun s t h => ?_, fun s o => ?_⟩
  · obtain ⟨-, ⟨r, -, rfl⟩ | ⟨-, i, hi, he⟩ | ⟨-, -, -, rfl⟩⟩ := step_inv h
    · exact .inl rfl
    · by_cases hp : ∃ a, i = .prn a
      · obtain ⟨a, rfl⟩ := hp
        obtain ⟨ha, rfl⟩ := he
        exact .inr ⟨hi.opcodeAtPc_eq rfl, ⟨a.toNat, ha⟩, congrArg _ (hi.byteAtPc_eq rfl), rfl⟩
      · exact .inl (he.frame.out fun a e => hp ⟨a, e⟩)
    · exact .inl rfl
  · have hf := unread_withEarlierOutput o
    obtain hs | ⟨i, -, hs, hs'⟩ := hf.step_cases s
    · exact hs
    · rw [hs, hs']
      exact hf.exec_eq_map s (fun _ _ => rfl) fun _ _ _ _ _ => setFl_withEarlierOutput s o

/-- Settles O41: another `FL` passes through every row but JEQ's, and a CMP that does not fault writes over
it. -/
theorem flagsAreReadByJeqAlone : Obligations.FlagsAreReadByJeqAlone := by
  intro s t x hd hop h
  have hf := unread_withOwnFl x
  have ht : t.regAlias = .decoupled :=
    (regAlias_eq_of_config_eq (parametersAreFixedForARun s t h)).trans hd
  have passes (hs : step (s.withOwnFl x) = mapNext (·.withOwnFl x) (step s)) :
      step (s.withOwnFl x) = .next (t.setFl x) := by
    rw [hs, h, mapNext, withOwnFl_of_decoupled ht]
  rw [← withOwnFl_of_decoupled hd]
  obtain hs | ⟨i, hi, hs, hs'⟩ := hf.step_cases s
  · exact .inl (passes hs)
  · by_cases hc : ∃ a b, i = .cmp a b ∧ a.toNat < 8 ∧ b.toNat < 8
    · obtain ⟨a, b, rfl, ha, hb⟩ := hc
      have hr := (step_inv h).1
      rw [hs, exec_cmp s ha hb] at h
      cases h
      refine .inr ⟨(Option.some.inj hi).symm, by simp [hr], ?_⟩
      rw [hs', exec_cmp _ ha hb, setFl_withOwnFl s x _ hd, hf.reg, hf.reg]
    · refine .inl (passes ?_)
      rw [hs, hs']
      refine hf.exec_eq_map s (fun a e => ?_) fun a b e ha hb => absurd ⟨a, b, e, ha, hb⟩ hc
      subst e
      exact absurd (Option.some.inj hi).symm hop

end Sys2Proof.Proofs
end

section
/-! SUPPORT. Register operands: the first bad one is the fault, and good ones never are (rules R21 and R203). -/

namespace Sys2Proof.Machine

variable {i : Instr} {s t : State}

theorem find?_badIndex_one {a x : Byte} (h : [a].find? (fun c => decide (7 < c.toNat)) = some x) :
    8 ≤ a.toNat ∧ x = a := by
  rw [List.find?_singleton] at h
  split at h
  · next ha => exact ⟨of_decide_eq_true ha, (Option.some.inj h).symm⟩
  · cases h

theorem find?_badIndex_two {a b x : Byte} (h : [a, b].find? (fun c => decide (7 < c.toNat)) = some x) :
    (8 ≤ a.toNat ∧ x = a) ∨ (a.toNat < 8 ∧ 8 ≤ b.toNat ∧ x = b) := by
  rw [List.find?_cons] at h
  split at h
  · next ha => exact .inl ⟨of_decide_eq_true ha, (Option.some.inj h).symm⟩
  · next ha => exact .inr ⟨not_le.mp (of_decide_eq_false ha), find?_badIndex_one h⟩

theorem accessedOperands_jeq_taken (a : Byte) (hf : s.fl = flagE) : accessedOperands s (.jeq a) = [a] :=
  if_pos hf

theorem accessedOperands_jeq_untaken (a : Byte) (hf : s.fl ≠ flagE) : accessedOperands s (.jeq a) = [] :=
  if_neg hf

/-- The first accessed operand above 7 is the fault, ahead of an instruction's other checks (rule R212). -/
theorem exec_of_badIndex {x : Byte}
    (h : (accessedOperands s i).find? (fun a => decide (7 < a.toNat)) = some x) :
    exec i s = .next (s.raise ⟨.registerOutOfRange, x.toNat⟩) := by
  cases i with
  | hlt => cases h
  | ret => cases h
  | push a => obtain ⟨ha, rfl⟩ := find?_badIndex_one h; exact exec_push_badIndex ha
  | pop a => obtain ⟨ha, rfl⟩ := find?_badIndex_one h; exact exec_pop_badIndex ha
  | prn a => obtain ⟨ha, rfl⟩ := find?_badIndex_one h; exact exec_prn_badIndex ha
  | call a => obtain ⟨ha, rfl⟩ := find?_badIndex_one h; exact exec_call_badIndex ha
  | jmp a => obtain ⟨ha, rfl⟩ := find?_badIndex_one h; exact exec_jmp_badIndex ha
  | jeq a =>
    by_cases hf : s.fl = flagE
    · rw [accessedOperands_jeq_taken a hf] at h
      obtain ⟨ha, rfl⟩ := find?_badIndex_one h
      exact exec_jeq_badIndex hf ha
    · rw [accessedOperands_jeq_untaken a hf] at h
      cases h
  | ldi a b => obtain ⟨ha, rfl⟩ := find?_badIndex_one h; exact exec_ldi_badIndex ha
  | add a b =>
    obtain ⟨ha, rfl⟩ | ⟨ha, hb, rfl⟩ := find?_badIndex_two h
    · exact exec_add_badFirst ha
    · exact exec_add_badSecond ha hb
  | mul a b =>
    obtain ⟨ha, rfl⟩ | ⟨ha, hb, rfl⟩ := find?_badIndex_two h
    · exact exec_mul_badFirst ha
    · exact exec_mul_badSecond ha hb
  | cmp a b =>
    obtain ⟨ha, rfl⟩ | ⟨ha, hb, rfl⟩ := find?_badIndex_two h
    · exact exec_cmp_badFirst ha
    · exact exec_cmp_badSecond ha hb

/-- With every accessed operand in range an instruction runs, or takes another fault. -/
theorem exec_of_goodIndices (hidx : ∀ a ∈ accessedOperands s i, a.toNat < 8) :
    (∃ t, Effect s t i ∧ exec i s = .next t) ∨
      ∃ r, r.cause ≠ .registerOutOfRange ∧ exec i s = .next (s.raise r) := by
  have first {a : Byte} {l : List Byte} (h : ∀ c ∈ a :: l, c.toNat < 8) : a.toNat < 8 :=
    h a List.mem_cons_self
  have second {a b : Byte} (h : ∀ c ∈ [a, b], c.toNat < 8) : b.toNat < 8 := h b (by simp)
  have stack (n : Nat) : (⟨.stackOutOfRange, n⟩ : Raise).cause ≠ .registerOutOfRange := nofun
  cases i with
  | hlt => exact .inl ⟨_, rfl, exec_hlt s⟩
  | ret =>
    by_cases hs : s.sp = 255
    · exact .inr ⟨_, stack _, exec_ret_top hs⟩
    · exact .inl ⟨_, ⟨hs, rfl⟩, exec_ret s hs⟩
  | push a =>
    by_cases hs : s.sp = 0
    · exact .inr ⟨_, stack _, exec_push_full (first hidx) hs⟩
    · exact .inl ⟨_, ⟨first hidx, hs, rfl⟩, exec_push s _ hs⟩
  | pop a =>
    by_cases hs : (s.setReg ⟨a.toNat, first hidx⟩ (s.mem.read s.sp.toNat)).sp = 255
    · exact .inr ⟨_, stack _, exec_pop_top _ hs⟩
    · exact .inl ⟨_, ⟨first hidx, hs, rfl⟩, exec_pop s _ hs⟩
  | prn a => exact .inl ⟨_, ⟨first hidx, rfl⟩, exec_prn s _⟩
  | call a =>
    by_cases hs : s.sp = 0
    · exact .inr ⟨_, stack _, exec_call_full (first hidx) hs⟩
    · by_cases hp : s.pc.toNat ≤ 253
      · exact .inl ⟨_, ⟨first hidx, hs, hp, rfl⟩, exec_call s _ hs hp⟩
      · exact .inr ⟨_, Cause.noConfusion, exec_call_noReturn (first hidx) hs (not_le.mp hp)⟩
  | jmp a => exact .inl ⟨_, ⟨first hidx, rfl⟩, exec_jmp s _⟩
  | jeq a =>
    by_cases hf : s.fl = flagE
    · rw [accessedOperands_jeq_taken a hf] at hidx
      exact .inl ⟨_, .inl ⟨hf, first hidx, rfl⟩, exec_jeq_taken s hf _⟩
    · exact .inl ⟨_, .inr ⟨hf, rfl⟩, exec_jeq_untaken a hf⟩
  | ldi a b => exact .inl ⟨_, ⟨first hidx, rfl⟩, exec_ldi b s _⟩
  | add a b => exact .inl ⟨_, ⟨first hidx, second hidx, rfl⟩, exec_add s _ _⟩
  | mul a b => exact .inl ⟨_, ⟨first hidx, second hidx, rfl⟩, exec_mul s _ _⟩
  | cmp a b => exact .inl ⟨_, ⟨first hidx, second hidx, rfl⟩, exec_cmp s _ _⟩

/-- The registers a well-formed instruction accesses exist. -/
theorem accessedOperands_lt_of_wellFormed (h : i.wellFormed = true) (s : State) :
    ∀ a ∈ accessedOperands s i, a.toNat < 8 := by
  have one {a c : Byte} (ha : registerOperand a = true) (hc : c ∈ [a]) : c.toNat < 8 := by
    rwa [List.mem_singleton.mp hc, ← registerOperand_eq_true]
  cases i
  case hlt | ret => exact nofun
  case push a | pop a | prn a | call a | jmp a | ldi a b => exact fun c hc => one h hc
  case jeq a =>
    by_cases hf : s.fl = flagE
    · rw [accessedOperands_jeq_taken a hf]
      exact fun c hc => one h hc
    · rw [accessedOperands_jeq_untaken a hf]
      exact nofun
  case add a b | mul a b | cmp a b => simpa [Instr.wellFormed, accessedOperands] using h

end Sys2Proof.Machine
end

section
/-! PROOFS. Accesses to the register file, and the two names of a cell under `ALIASED`. -/

namespace Sys2Proof.Proofs

open Sys2Proof.Machine

/-- Settles O13: the first bad operand is checked ahead of everything else, and is the only source of the
fault. -/
theorem registerFaultExactlyOnAccess : Obligations.RegisterFaultExactlyOnAccess := by
  refine fun i s => ⟨fun x hx => exec_of_badIndex hx, fun hidx t f h hr ht hf => ?_⟩
  obtain ⟨u, he, hs⟩ | ⟨r, hr', hs⟩ :=
    exec_of_goodIndices (i := i) fun a ha => Nat.lt_succ_of_le (hidx a ha)
  · rw [hs] at h
    cases h
    rw [he.frame.run, hr] at ht
    split at ht <;> cases ht
  · rw [hs] at h
    cases h
    cases hf
    exact hr'

/-- Settles O18: every operand a well-formed instruction accesses is in range. -/
theorem wellFormedNeverRegisterFaults : Obligations.WellFormedNeverRegisterFaults := by
  intro i s t f hw hr h
  refine (registerFaultExactlyOnAccess i s).2 (fun a ha => ?_) t f h hr
  exact Nat.le_of_lt_succ (accessedOperands_lt_of_wellFormed hw s a ha)

/-- Settles O40: each second instruction reads the cell that the first one wrote under its other name. -/
theorem aliasedNamesShareACell : Obligations.AliasedNamesShareACell := by
  intro s t hal
  refine ⟨fun v a h ha hv => ?_, fun a h ha hs => ?_, fun v c h hc => ?_, fun a b h ha hb => ?_⟩
  · obtain rfl : t = (s.setReg 7 v).advance 3 :=
      Host.Outcome.next.inj (h.symm.trans (exec_ldi v s (by decide)))
    have hsp : ((s.setReg 7 v).advance 3).sp = v := by simp [State.sp_setReg, hal]
    have h7 : (⟨a.toNat, ha⟩ : Fin 8) = 7 ↔ a = 7 := index_eq_iff _ ha
    refine ⟨_, exec_push _ ha (hsp.symm ▸ hv), ?_, ?_, fun x hx => ?_⟩
    · rw [State.sp_advance, State.sp_setMem, State.sp_setSp, hsp]
    · simp [hsp, State.reg_setSp, hal, h7]
    · simpa [hsp] using Memory.read_write_ne _ _ hx
  · rw [exec_push s ha hs] at h
    cases h
    exact ⟨_, exec_prn _ (by decide), by simp [State.reg_setSp, hal]⟩
  · obtain rfl : t = (s.setReg 6 v).advance 3 :=
      Host.Outcome.next.inj (h.symm.trans (exec_ldi v s (by decide)))
    have hfl : ((s.setReg 6 v).advance 3).fl = v := by simp [State.fl_setReg, hal]
    by_cases hv : v = 1
    · exact ⟨_, exec_jeq_taken _ (hfl.trans hv) hc, fun _ => zext9_toNat _, absurd hv⟩
    · exact ⟨_, exec_jeq_untaken c (hfl.symm ▸ hv), fun e => absurd e hv, fun _ => rfl⟩
  · rw [exec_cmp s ha hb] at h
    cases h
    refine ⟨_, exec_prn _ (by decide), by simp [State.reg_setFl, hal], ?_⟩
    rw [State.fl_advance, State.fl_setFl]
    exact compareFlags_eq_flag _ _

end Sys2Proof.Proofs
end

section
/-! SUPPORT. Canonical memories cell by cell, the step that runs the instruction standing at `pc`, and
what a row stores and the next fetch reads. -/

namespace Sys2Proof.Machine

variable {i : Instr} {s t : State}

/-! ## Canonical memories -/

namespace Memory

/-- The tail of a canonical memory reads as the whole but at the head's address. -/
theorem read_tail {c : Host.Cell} {m : Memory} (h : Memory.wf (c :: m)) (x : Nat) :
    m.read x = if x = c.1 then Config.unlistedByte else Memory.read (c :: m) x := by
  split
  · next hx =>
    exact read_of_forall_ne fun d hd => hx ▸ ne_of_gt (List.rel_of_pairwise_cons h.1 hd)
  · next hx => rw [Memory.read, if_neg (Ne.symm hx)]

theorem read_head_ne {c : Host.Cell} {m : Memory} (h : Memory.wf (c :: m)) :
    Memory.read (c :: m) c.1 ≠ Config.unlistedByte := by
  rw [read_head]
  exact (h.2 c List.mem_cons_self).2

/-- The head of a canonical memory is at or above the head of one that reads the same. -/
theorem head_le {c d : Host.Cell} {m n : Memory} (hm : Memory.wf (c :: m)) (hn : Memory.wf (d :: n))
    (h : ∀ x, Memory.read (c :: m) x = Memory.read (d :: n) x) : d.1 ≤ c.1 :=
  not_lt.mp fun hlt => read_head_ne hm ((h c.1).trans (read_of_lt_head hn hlt))

theorem eq_of_read_eq {m n : Memory} (hm : m.wf) (hn : n.wf) (h : ∀ x, m.read x = n.read x) : m = n := by
  induction m generalizing n with
  | nil =>
    cases n with
    | nil => rfl
    | cons d n => exact absurd (h d.1).symm (read_head_ne hn)
  | cons c m ih =>
    cases n with
    | nil => exact absurd (h c.1) (read_head_ne hm)
    | cons d n =>
      have haddr : c.1 = d.1 := le_antisymm (head_le hn hm fun x => (h x).symm) (head_le hm hn h)
      have hbyte : c.2 = d.2 := by rw [← read_head c m, h, haddr, read_head]
      have htail : m = n := ih (wf_tail hm) (wf_tail hn) fun x => by
        rw [read_tail hm, read_tail hn, h, haddr]
      rw [Prod.ext haddr hbyte, htail]

end Memory

/-! ## The instruction that stands at `pc` -/

/-- The encoded length of every row, from the lemma of each. -/
theorem encodedLength : ∀ i : Instr, Laws.EncodedLength.Statement i
  | .hlt => Laws.EncodedLength.hlt
  | .ret => Laws.EncodedLength.ret
  | .push a => Laws.EncodedLength.push a
  | .pop a => Laws.EncodedLength.pop a
  | .prn a => Laws.EncodedLength.prn a
  | .call a => Laws.EncodedLength.call a
  | .jmp a => Laws.EncodedLength.jmp a
  | .jeq a => Laws.EncodedLength.jeq a
  | .ldi a b => Laws.EncodedLength.ldi a b
  | .add a b => Laws.EncodedLength.add a b
  | .mul a b => Laws.EncodedLength.mul a b
  | .cmp a b => Laws.EncodedLength.cmp a b

theorem standsAtPc_of_hlt (h : s.opcodeAtPc = Opcode.hlt) : StandsAtPc s .hlt := congrArg (· :: []) h.symm

theorem standsAtPc_of_push (h : s.opcodeAtPc = Opcode.push) : StandsAtPc s (.push (s.byteAtPc 1)) :=
  congrArg (· :: [s.byteAtPc 1]) h.symm

theorem standsAtPc_of_call (h : s.opcodeAtPc = Opcode.call) :
    StandsAtPc s (.call (s.byteAtPc 1)) :=
  congrArg (· :: [s.byteAtPc 1]) h.symm

/-- An instruction that stands whole inside memory at `pc` is the one the step runs (rule R100). -/
theorem step_of_standsAtPc (hr : s.run = .running) (hi : StandsAtPc s i)
    (hp : s.pc.toNat + (encode i).length ≤ 256) : step s = exec i s := by
  obtain ⟨op, opnds, he, hn⟩ := encodedLength i
  rw [StandsAtPc, he, List.length_cons, List.range_succ_eq_map, List.map_cons, List.cons.injEq,
    byteAtPc_zero, hn, List.map_map] at hi
  rw [he, List.length_cons, hn] at hp
  obtain ⟨rfl, hopnds⟩ := hi
  rw [step_of_running hr]
  refine stepRunning_of_row ?_ (decodeRow_encode he)
  by_cases ho : s.opcodeAtPc = Opcode.hlt
  · rw [fetch_of_hlt (by omega) ho, ho, List.length_eq_zero_iff.mp (hn.trans (by rw [ho]; rfl))]
  · rw [fetch_of_operands_present (by omega) ho (Nat.le_of_succ_le_succ hp), operandBytes_eq, hopnds]
    rfl

/-! ## What a row stores and the next fetch reads -/

/-- A row stores one byte at the decremented `SP`, PUSH and CALL do, or leaves memory (rules R53 and R57). -/
theorem Effect.mem_cases (h : Effect s t i) :
    t.mem = s.mem ∨ (((∃ a, i = .push a) ∨ ∃ a, i = .call a) ∧ s.sp ≠ 0 ∧
      ∃ v, t.mem = s.mem.write (s.sp - 1).toNat v) := by
  cases i with
  | hlt => subst h; exact .inl rfl
  | ret => obtain ⟨-, rfl⟩ := h; exact .inl (by simp)
  | push a => obtain ⟨_, hs, rfl⟩ := h; exact .inr ⟨.inl ⟨a, rfl⟩, hs, _, rfl⟩
  | pop a => obtain ⟨_, -, rfl⟩ := h; exact .inl (by simp)
  | prn a => obtain ⟨_, rfl⟩ := h; exact .inl rfl
  | call a => obtain ⟨_, hs, -, rfl⟩ := h; exact .inr ⟨.inr ⟨a, rfl⟩, hs, _, rfl⟩
  | jmp a => obtain ⟨_, rfl⟩ := h; exact .inl rfl
  | jeq a => obtain ⟨-, _, rfl⟩ | ⟨-, rfl⟩ := h <;> exact .inl rfl
  | ldi a b => obtain ⟨_, rfl⟩ := h; exact .inl rfl
  | add a b => obtain ⟨_, _, rfl⟩ := h; exact .inl rfl
  | mul a b => obtain ⟨_, _, rfl⟩ := h; exact .inl rfl
  | cmp a b => obtain ⟨_, _, rfl⟩ := h; exact .inl (by simp)

/-- PUSH goes on behind itself, having stored its register (rule R161). -/
theorem step_push_stores (hr : s.run = .running) (ho : s.opcodeAtPc = Opcode.push)
    (hp : s.pc.toNat + 2 ≤ 255) (ha : (s.byteAtPc 1).toNat < 8) (hs : s.sp ≠ 0) :
    ∃ t, step s = .next t ∧ t.run = .running ∧ t.pc.toNat = s.pc.toNat + 2 ∧
      t.mem.read (s.sp - 1).toNat = (s.setSp (s.sp - 1)).reg ⟨(s.byteAtPc 1).toNat, ha⟩ := by
  refine ⟨_, (step_of_standsAtPc hr (standsAtPc_of_push ho) (Nat.le_succ_of_le hp)).trans
    (exec_push s ha hs), (s.setSp_run _).trans hr, ?_, Memory.read_write_self ..⟩
  have hpc := (s.setSp (s.sp - 1)).advance_pc_toNat 2 (by rw [State.setSp_pc]; omega) (by decide)
  rwa [State.setSp_pc] at hpc

/-- CALL goes on at its register, having stored the return address (rule R181). -/
theorem step_call_stores (hr : s.run = .running) (ho : s.opcodeAtPc = Opcode.call)
    (hp : s.pc.toNat + 2 ≤ 255) (ha : (s.byteAtPc 1).toNat < 8) (hs : s.sp ≠ 0) :
    ∃ t, step s = .next t ∧ t.run = .running ∧
      t.pc.toNat = ((s.setSp (s.sp - 1)).reg ⟨(s.byteAtPc 1).toNat, ha⟩).toNat ∧
      t.mem.read (s.sp - 1).toNat = BitVec.ofNat 8 (s.pc.toNat + 2) :=
  ⟨_, (step_of_standsAtPc hr (standsAtPc_of_call ho) (Nat.le_succ_of_le hp)).trans
    (exec_call s ha hs (by omega)), (s.setSp_run _).trans hr, zext9_toNat _, Memory.read_write_self ..⟩

theorem getElem?_codeBytes {k : Nat} (h : s.pc.toNat + k < 256) : (codeBytes s)[k]? = some (s.byteAtPc k) := by
  rw [codeBytes, List.getElem?_map, List.getElem?_range (by simp only [Config.memSize]; omega)]
  rfl

/-- What a cell that the next step fetches from holds is what it fetches, and a HLT byte stops it. -/
theorem fetched_of_read {v : Byte} {k a : Nat} (hr : t.run = .running) (ha : a < 256)
    (hv : t.mem.read a = v) (hk : t.pc.toNat + k = a) :
    (codeBytes t)[k]? = some v ∧
      (k = 0 → t.opcodeAtPc = v ∧ (t.opcodeAtPc = 0x01 → step t = .next { t with run := .halted })) := by
  subst hk
  refine ⟨by rw [getElem?_codeBytes ha, State.byteAtPc, hv], ?_⟩
  rintro rfl
  exact ⟨hv, fun ho => (step_of_standsAtPc hr (standsAtPc_of_hlt ho) ha).trans (exec_hlt t)⟩

end Sys2Proof.Machine
end

section
/-! PROOFS. Memory: the range check, who writes it, one list for each memory, and the fetch of what was
stored. -/

namespace Sys2Proof.Proofs

open Sys2Proof.Machine

/-- Settles O15: both operations check the range first, and a write is seen at its own address alone. -/
theorem everyAccessIsRangeChecked : Obligations.EveryAccessIsRangeChecked := by
  refine fun addr v s => ⟨fun h => ⟨memRead_of_ge s h, memWrite_of_ge v s h⟩, fun h => ?_⟩
  have hlt : addr < 256 := Nat.lt_succ_of_le h
  exact ⟨memRead_of_lt s hlt, _, memWrite_of_lt v s hlt, Memory.read_write_self s.mem addr v,
    fun x hx => Memory.read_write_ne s.mem v hx, rfl⟩

/-- Settles O47, by induction on one list: equal reads put both heads at one address (log entry 3). -/
theorem canonicalMemoryIsUnique : Obligations.CanonicalMemoryIsUnique :=
  fun _ _ hm hn h => Memory.eq_of_read_eq hm hn h

/-- Settles O38: a fault and a skip leave memory, and of the rows PUSH and CALL alone write, one cell. -/
theorem onlyPushAndCallWriteMemory : Obligations.OnlyPushAndCallWriteMemory := by
  intro s t x h hx
  obtain ⟨-, ⟨r, -, rfl⟩ | ⟨-, i, hi, he⟩ | ⟨-, -, -, rfl⟩⟩ := step_inv h
  · exact absurd rfl hx
  · obtain hm | ⟨hrow, hs, v, hm⟩ := he.mem_cases
    · exact absurd (congrArg (·.read x) hm) hx
    · refine ⟨?_, hs, ?_⟩
      · obtain ⟨a, rfl⟩ | ⟨a, rfl⟩ := hrow <;> rw [hi.opcodeAtPc_eq rfl] <;> decide
      · by_contra hne
        exact hx (by rw [hm, Memory.read_write_ne _ v hne])
  · exact absurd rfl hx

/-- Settles O35: the byte is in the cell at the decremented `SP`, and the next step's fetch reads that cell. -/
theorem pushedByteIsFetchedNext : Obligations.PushedByteIsFetchedNext := by
  intro s i hr hp hs hi
  have ha : (s.byteAtPc 1).toNat < 8 := hi ▸ i.isLt
  obtain rfl : (⟨(s.byteAtPc 1).toNat, ha⟩ : Fin 8) = i := Fin.ext hi
  rw [← State.reg_setSp s (s.sp - 1)]
  have hlt : (s.sp - 1).toNat < 256 := (s.sp - 1).isLt
  refine ⟨fun ho => ?_, fun ho => ?_⟩
  · obtain ⟨t, hstep, hrun, hpc, hread⟩ := step_push_stores hr ho hp ha hs
    exact ⟨t, hstep, hrun, hpc, fun k hk => fetched_of_read hrun hlt hread (hpc ▸ hk)⟩
  · obtain ⟨t, hstep, hrun, hpc, hread⟩ := step_call_stores hr ho hp ha hs
    refine ⟨t, hstep, hrun, hpc, fun k hk => ?_⟩
    obtain ⟨hget, hnext⟩ := fetched_of_read hrun hlt hread (hpc ▸ hk)
    refine ⟨hget, fun hzero => (hnext hzero).imp_left fun hop => ?_⟩
    rw [hop, BitVec.toNat_ofNat]
    omega

end Sys2Proof.Proofs
end

section
/-! SUPPORT. The decoder said once: bytes are too few, or begin with an instruction's encoding, or begin
with an unknown opcode (rules R76, R79 and R107). -/

namespace Sys2Proof.Machine

variable {op : Byte} {bytes opnds rest : List Byte} {i : Instr}

/-- An opcode byte is followed by as many operand bytes as its bits 7:6 say (rules R72 and R73). -/
theorem length_operands_of_encode (h : encode i = op :: opnds) : opnds.length = operandCount op := by
  obtain ⟨op', opnds', he, hn⟩ := encodedLength i
  obtain ⟨rfl, rfl⟩ := List.cons.inj (h.symm.trans he)
  exact hn

/-- The first byte of an encoding is in the table (rule R75). -/
theorem mem_table_of_encode (h : encode i = op :: opnds) : op ∈ Opcode.table := by
  by_contra hm
  have hnone := (decodeRow_eq_none_iff (length_operands_of_encode h)).mpr hm
  exact nomatch (decodeRow_encode h).symm.trans hnone

/-- Missing operand bytes are met first; HLT, which has none, never lacks one (rules R79 and R107). -/
theorem decode_of_operands_missing (h : bytes.length < operandCount op) :
    decode (op :: bytes) = .error (.truncated (bytes.length + 1)) := by
  have hne : op ≠ Opcode.hlt := by
    rintro rfl
    exact Nat.not_lt_zero _ h
  rw [decode_cons, if_neg hne, if_pos h]

/-- An opcode byte outside the table is refused once its operand bytes are there (rules R76 and R107). -/
theorem decode_of_unknown (hn : operandCount op ≤ bytes.length) (hm : op ∉ Opcode.table) :
    decode (op :: bytes) = .error (.unknownOpcode op) := by
  have hne : op ≠ Opcode.hlt := by
    rintro rfl
    exact hm (by decide)
  have hrow := (decodeRow_eq_none_iff (List.length_take_of_le hn)).mpr hm
  rw [decode_cons, if_neg hne, if_neg (Nat.not_lt.mpr hn), hrow]

/-- An encoding is read back as its instruction, and what follows it is left over (rules R73 and R75). -/
theorem decode_encode_append (i : Instr) (rest : List Byte) : decode (encode i ++ rest) = .ok (i, rest) := by
  obtain ⟨op, opnds, he, hn⟩ := encodedLength i
  have hrow := decodeRow_encode he
  rw [he, List.cons_append, decode_cons]
  by_cases ho : op = Opcode.hlt
  · subst ho
    obtain rfl := List.length_eq_zero_iff.mp hn
    obtain rfl := Option.some.inj hrow
    rfl
  · have hlen : ¬(opnds ++ rest).length < operandCount op := by rw [List.length_append]; omega
    rw [if_neg ho, if_neg hlen, List.take_left' hn, List.drop_left' hn, hrow]

/-- What the decoder answers on bytes that begin with `op`. -/
theorem decode_cases (op : Byte) (bytes : List Byte) :
    (bytes.length < operandCount op ∧ decode (op :: bytes) = .error (.truncated (bytes.length + 1))) ∨
    (operandCount op ≤ bytes.length ∧ op ∉ Opcode.table ∧
      decode (op :: bytes) = .error (.unknownOpcode op)) ∨
    (∃ i opnds rest, encode i = op :: opnds ∧ bytes = opnds ++ rest ∧
      decode (op :: bytes) = .ok (i, rest)) := by
  rcases Nat.lt_or_ge bytes.length (operandCount op) with hlt | hn
  · exact .inl ⟨hlt, decode_of_operands_missing hlt⟩
  refine .inr ?_
  have hlen : (bytes.take (operandCount op)).length = operandCount op := List.length_take_of_le hn
  cases hd : decodeRow op (bytes.take (operandCount op)) with
  | none =>
    have hm := (decodeRow_eq_none_iff hlen).mp hd
    exact .inl ⟨hn, hm, decode_of_unknown hn hm⟩
  | some i =>
    have he := decodeRow_eq_some hd
    have hback := decode_encode_append i (bytes.drop (operandCount op))
    rw [he, List.cons_append, List.take_append_drop] at hback
    exact .inr ⟨i, _, _, he, (List.take_append_drop ..).symm, hback⟩

/-- Bytes that decode are the instruction's opcode and operand bytes, and then what is left over. -/
theorem operands_of_decode (h : decode (op :: bytes) = .ok (i, rest)) :
    ∃ opnds, encode i = op :: opnds ∧ bytes = opnds ++ rest := by
  obtain ⟨-, hd⟩ | ⟨-, -, hd⟩ | ⟨j, opnds, rest', he, hb, hd⟩ := decode_cases op bytes
  · exact nomatch hd.symm.trans h
  · exact nomatch hd.symm.trans h
  · obtain ⟨rfl, rfl⟩ := Prod.mk.inj (Except.ok.inj (hd.symm.trans h))
    exact ⟨opnds, he, hb⟩

theorem decode_eq_ok_iff : decode bytes = .ok (i, rest) ↔ bytes = encode i ++ rest := by
  constructor
  · intro h
    cases bytes with
    | nil => exact nomatch h
    | cons op bytes =>
      obtain ⟨opnds, he, rfl⟩ := operands_of_decode h
      rw [he, List.cons_append]
  · rintro rfl
    exact decode_encode_append i rest

/-- An opcode byte is refused as unknown exactly when it is outside the table and its operand bytes are
there (rules R76, R77 and R107). -/
theorem decode_eq_unknown_iff :
    decode (op :: bytes) = .error (.unknownOpcode op) ↔
      op ∉ Opcode.table ∧ operandCount op ≤ bytes.length := by
  constructor
  · intro h
    obtain ⟨-, hd⟩ | ⟨hn, hm, -⟩ | ⟨i, opnds, rest, -, -, hd⟩ := decode_cases op bytes
    · exact nomatch hd.symm.trans h
    · exact ⟨hm, hn⟩
    · exact nomatch hd.symm.trans h
  · rintro ⟨hm, hn⟩
    exact decode_of_unknown hn hm

end Sys2Proof.Machine
end

section
/-! PROOFS. Encoding: the round trip, the opcode table, the refusals and the length of an instruction. -/

namespace Sys2Proof.Proofs

open Sys2Proof.Machine

/-- Settles O1: the decoder reads an encoding back, and what it reads back it encodes to the same bytes. -/
theorem decodeAndEncodeAreInverse : Obligations.DecodeAndEncodeAreInverse :=
  fun _ _ _ => decode_eq_ok_iff

/-- Settles O2: each row is the round trip of its instruction, and no encoding begins with another byte. -/
theorem opcodeTableHasExactlyTwelveRows : Obligations.OpcodeTableHasExactlyTwelveRows := by
  refine ⟨fun a b rest => ⟨decode_encode_append .hlt rest, decode_encode_append .ret rest,
    decode_encode_append (.push a) rest, decode_encode_append (.pop a) rest,
    decode_encode_append (.prn a) rest, decode_encode_append (.call a) rest,
    decode_encode_append (.jmp a) rest, decode_encode_append (.jeq a) rest,
    decode_encode_append (.ldi a b) rest, decode_encode_append (.add a b) rest,
    decode_encode_append (.mul a b) rest, decode_encode_append (.cmp a b) rest⟩,
    fun op bytes rest i h => ?_⟩
  obtain ⟨opnds, he, -⟩ := operands_of_decode h
  exact mem_table_of_encode he

/-- Settles O4: of the decoder's three answers only the unknown opcode has no row and all its operand bytes. -/
theorem decoderRefusesExactlyTheOtherBytes : Obligations.DecoderRefusesExactlyTheOtherBytes := by
  intro op bytes
  rw [← operandCount_eq]
  exact decode_eq_unknown_iff

/-- Settles O5: what is used up is the encoding, whose operand bytes bits 7:6 count; HLT has none. -/
theorem lengthComesFromTheOpcodeByte : Obligations.LengthComesFromTheOpcodeByte := by
  refine ⟨fun op bytes rest i h => ?_, decode_encode_append .hlt⟩
  obtain ⟨opnds, he, rfl⟩ := operands_of_decode h
  rw [List.length_cons, List.length_append, length_operands_of_encode he, operandCount_eq]
  omega

/-- Settles O3: six round trips with nothing left over, and one refusal of each kind. -/
theorem sampleWordsDecode : Obligations.SampleWordsDecode :=
  ⟨decode_encode_append (.ldi 0 8) [], decode_encode_append (.add 0 1) [],
    decode_encode_append (.prn 0) [], decode_encode_append .hlt [], decode_encode_append (.call 1) [],
    decode_encode_append (.push 255) [], decode_of_unknown (by decide) (by decide),
    decode_of_operands_missing (by decide)⟩

end Sys2Proof.Proofs
end

section
/-! SUPPORT. The bytes from `pc` up as a whole, and the step by what its fetch meets there (rules R100, R104
and R107). -/

namespace Sys2Proof.Machine

variable {i : Instr} {s t : State}

/-! ## The bytes from `pc` up -/

theorem codeBytes_eq_nil (hp : 255 < s.pc.toNat) : codeBytes s = [] :=
  List.length_eq_zero_iff.mp (by rw [length_codeBytes]; omega)

theorem codeBytes_eq_cons (hp : s.pc.toNat ≤ 255) :
    ∃ bytes, codeBytes s = s.opcodeAtPc :: bytes ∧ s.pc.toNat + bytes.length = 255 := by
  have hlen := length_codeBytes s
  have hget := getElem?_codeBytes (s := s) (k := 0) (by omega)
  cases hc : codeBytes s with
  | nil => rw [hc, List.length_nil] at hlen; omega
  | cons op bytes =>
    rw [hc, List.length_cons] at hlen
    rw [hc, List.getElem?_cons_zero, byteAtPc_zero] at hget
    exact ⟨bytes, by rw [Option.some.inj hget], by omega⟩

/-- What memory holds from `pc` up begins with the instruction that stands whole there. -/
theorem StandsAtPc.codeBytes_eq (hi : StandsAtPc s i) (hp : s.pc.toNat + (encode i).length ≤ 256) :
    codeBytes s = encode i ++ (codeBytes s).drop (encode i).length := by
  have htake : (codeBytes s).take (encode i).length = (List.range (encode i).length).map s.byteAtPc := by
    rw [codeBytes, ← List.map_take, List.take_range, min_eq_left (by simp only [Config.memSize]; omega)]
    rfl
  rw [StandsAtPc] at hi
  rw [hi, ← htake, List.length_take_of_le (by rw [length_codeBytes]; omega), List.take_append_drop]

/-- Bytes at `pc` that are an encoding's, one by one. -/
theorem standsAtPc_of_getElem (h : ∀ (k : Nat) (hk : k < (encode i).length), s.byteAtPc k = (encode i)[k]) :
    StandsAtPc s i := by
  refine List.ext_getElem (by simp) fun k hk _ => ?_
  rw [List.getElem_map, List.getElem_range, h k hk]

theorem StandsAtPc.length_encode (hi : StandsAtPc s i) :
    (encode i).length = operandCount s.opcodeAtPc + 1 := by
  obtain ⟨op, opnds, he, hn⟩ := encodedLength i
  have ho : s.opcodeAtPc = op := hi.opcodeAtPc_eq (by rw [he, List.getElem?_cons_zero])
  rw [he, List.length_cons, hn, ho]

/-! ## The step by what its fetch meets -/

theorem opcodeAtPc_ne_hlt (ho : s.opcodeAtPc ∉ Opcode.table) : s.opcodeAtPc ≠ Opcode.hlt := by
  intro he
  rw [he] at ho
  exact ho (by decide)

theorem step_of_pc_gt (hr : s.run = .running) (hp : 255 < s.pc.toNat) :
    step s = .next (s.faultedWith .memoryOutOfRange s.pc.toNat) := by
  rw [step_of_running hr]
  exact stepRunning_of_error (fetch_of_pc_gt hp)

theorem step_of_operands_missing (hr : s.run = .running) (hp : s.pc.toNat ≤ 255)
    (ho : s.opcodeAtPc ≠ Opcode.hlt) (hn : 255 < s.pc.toNat + operandCount s.opcodeAtPc) :
    step s = .next (s.faultedWith .memoryOutOfRange 256) := by
  rw [step_of_running hr]
  exact stepRunning_of_error (fetch_of_operands_missing hp ho hn)

/-- An opcode outside the table, once its operand bytes are read, is left to the policy (rule R104). -/
theorem step_of_unknown (hr : s.run = .running) (ho : s.opcodeAtPc ∉ Opcode.table)
    (hn : s.pc.toNat + operandCount s.opcodeAtPc ≤ 255) : step s = execUnknown s.opcodeAtPc s := by
  have hf := fetch_of_operands_present (by omega) (opcodeAtPc_ne_hlt ho) hn
  have hlen : ((List.range (operandCount s.opcodeAtPc)).map fun k =>
      s.mem.read (s.pc.toNat + 1 + k)).length = operandCount s.opcodeAtPc := by
    rw [List.length_map, List.length_range]
  rw [step_of_running hr]
  exact stepRunning_of_unknown hf ((decodeRow_eq_none_iff hlen).mpr ho)

theorem step_next_of_running (hr : s.run = .running) : ∃ t, step s = .next t := by
  obtain ⟨-, hs⟩ | ⟨-, -, -, hs⟩ | ⟨-, -, i, -, hs⟩ | ⟨-, -, -, hs⟩ := step_cases hr <;> rw [hs]
  · exact ⟨_, rfl⟩
  · exact ⟨_, rfl⟩
  · exact exec_next i s
  · exact execUnknown_next _ s

theorem step_of_halted (hr : s.run = .halted) : step s = .fault .haltedHasNoStep := by rw [step, hr]

theorem step_of_faulted (hr : s.run = .faulted) : step s = .fault .faultedHasNoStep := by rw [step, hr]

/-! ## Whose fault `MemoryOutOfRange` is -/

theorem faultedWith_inj {c d : Cause} {m n : Nat} (h : s.faultedWith c m = s.faultedWith d n) :
    c = d ∧ m = n := by
  have hrec := Option.some.inj (congrArg State.faultRecord h)
  exact ⟨congrArg FaultRecord.cause hrec, congrArg FaultRecord.info hrec⟩

/-- No instruction takes `MemoryOutOfRange`: its own accesses to memory are all at `SP` (rule R52). -/
theorem exec_ne_memoryOutOfRange {info : Nat} (hr : s.run = .running) (h : exec i s = .next t) :
    t ≠ s.faultedWith .memoryOutOfRange info := by
  rintro rfl
  obtain he | ⟨r, hraise, he⟩ := exec_inv h
  · have hrun := he.frame.run
    rw [hr] at hrun
    split at hrun <;> cases hrun
  · have hcause : Cause.memoryOutOfRange = r.cause := (faultedWith_inj he).1
    obtain ⟨hc, -⟩ | ⟨hc, -⟩ | ⟨hc, -⟩ := hraise <;> cases hcause.trans hc

theorem execUnknown_ne_memoryOutOfRange {op : Byte} {info : Nat} (hr : s.run = .running)
    (h : execUnknown op s = .next t) : t ≠ s.faultedWith .memoryOutOfRange info := by
  rintro rfl
  cases hpol : s.unknownOpcodePolicy with
  | fault =>
    rw [execUnknown_fault op hpol] at h
    have hcause := (faultedWith_inj (Host.Outcome.next.inj h)).1
    cases hcause
  | skip =>
    rw [execUnknown_skip op hpol] at h
    have hrun : s.run = .faulted := congrArg State.run (Host.Outcome.next.inj h)
    cases hr.symm.trans hrun

/-! ## A table word placed at `pc` -/

theorem length_tableBytes (nbits w : Nat) : (tableBytes nbits w).length = 4 := rfl

theorem length_encode_le (i : Instr) : (encode i).length ≤ 3 := by
  cases i
  case hlt | ret => exact (by decide : 1 ≤ 3)
  case push a | pop a | prn a | call a | jmp a | jeq a => exact (by decide : 2 ≤ 3)
  case ldi a b | add a b | mul a b | cmp a b => exact le_rfl

theorem decodeTableWord_eq_some {nbits w : Nat} (h : decodeTableWord nbits w = some i) :
    ∃ rest, tableBytes nbits w = encode i ++ rest := by
  unfold decodeTableWord at h
  split at h
  · next j rest hd =>
    cases h
    exact ⟨rest, decode_eq_ok_iff.mp hd⟩
  · cases h

/-- The cells from `pc` up that are in memory hold the word's bytes (rule R234, log entry 5). -/
theorem byteAtPc_withFetchWord {nbits w k : Nat} (hk : k < (tableBytes nbits w).length)
    (hp : s.pc.toNat + k < 256) :
    (s.withFetchWord nbits w).byteAtPc k = (tableBytes nbits w)[k] := by
  have hlen : ((tableBytes nbits w).take (256 - s.pc.toNat)).length = min (256 - s.pc.toNat) 4 := by
    rw [List.length_take, length_tableBytes]
  rw [length_tableBytes] at hk
  have hread := Memory.read_writeList s.mem s.pc.toNat ((tableBytes nbits w).take (256 - s.pc.toNat))
    (s.pc.toNat + k)
  rw [dif_pos (by omega)] at hread
  refine hread.trans ?_
  simp only [List.getElem_take, Nat.add_sub_cancel_left]

/-- An instruction's word placed where it fits in memory stands at `pc`. -/
theorem standsAtPc_withFetchWord {nbits w : Nat} (h : decodeTableWord nbits w = some i)
    (hp : s.pc.toNat + (encode i).length ≤ 256) : StandsAtPc (s.withFetchWord nbits w) i := by
  obtain ⟨rest, hw⟩ := decodeTableWord_eq_some h
  refine standsAtPc_of_getElem fun k hk => ?_
  have hlen : k < (tableBytes nbits w).length := by rw [hw, List.length_append]; omega
  rw [byteAtPc_withFetchWord hlen (by omega)]
  simp only [hw, List.getElem_append_left hk]

end Sys2Proof.Machine
end

section
/-! PROOFS. The step of rule R100: fetch and decode, unknown opcodes, HLT and the fetch that leaves memory. -/

namespace Sys2Proof.Proofs

open Sys2Proof.Machine

/-- Settles O7: each way a fetch ends is an answer of the decoder on the bytes from `pc` up. -/
theorem fetchRefinesDecodingMemory : Obligations.FetchRefinesDecodingMemory := by
  intro s hr
  obtain ⟨hp, hs⟩ | ⟨hp, -, hn, hs⟩ | ⟨-, hn, i, hi, hs⟩ | ⟨hp, hn, ho, hs⟩ := step_cases hr
  · rw [hs, codeBytes_eq_nil hp]
    rfl
  · obtain ⟨bytes, hb, hlen⟩ := codeBytes_eq_cons hp
    have haddr : s.pc.toNat + (bytes.length + 1) = 256 := by omega
    rw [hs, hb, decode_of_operands_missing (by omega)]
    simp only [haddr]
    rfl
  · rw [hs, hi.codeBytes_eq (by rw [hi.length_encode]; omega), decode_encode_append]
  · obtain ⟨bytes, hb, hlen⟩ := codeBytes_eq_cons hp
    rw [hs, hb, decode_of_unknown (by omega) ho]

/-- Settles O6: the first arm of the refinement. -/
theorem stepRunsTheDecodedInstruction : Obligations.StepRunsTheDecodedInstruction := by
  intro s i rest hr hd
  have hs := fetchRefinesDecodingMemory s hr
  rwa [hd] at hs

/-- Settles O9: the operand fetch comes first, then the policy decides. -/
theorem unknownOpcodeFollowsThePolicy : Obligations.UnknownOpcodeFollowsThePolicy := by
  intro s hr hp ho
  rw [← operandCount_eq]
  exact ⟨fun hn hpol => (step_of_unknown hr ho hn).trans (execUnknown_fault _ hpol),
    fun hn hpol => (step_of_unknown hr ho hn).trans (execUnknown_skip _ hpol),
    step_of_operands_missing hr hp (opcodeAtPc_ne_hlt ho)⟩

/-- Settles O16: the two fetch faults, which no instruction and no unknown opcode takes. -/
theorem memoryFaultExactlyAtFetch : Obligations.MemoryFaultExactlyAtFetch := by
  intro s t info h
  obtain ⟨hr, -⟩ := step_inv h
  rw [← operandCount_eq]
  constructor
  · rintro rfl
    obtain ⟨hp, hs⟩ | ⟨hp, ho, hn, hs⟩ | ⟨-, -, i, -, hs⟩ | ⟨-, -, -, hs⟩ := step_cases hr <;>
      rw [hs] at h
    · exact .inl ⟨hp, (faultedWith_inj (Host.Outcome.next.inj h)).2.symm⟩
    · exact .inr ⟨hp, ho, hn, (faultedWith_inj (Host.Outcome.next.inj h)).2.symm⟩
    · exact absurd rfl (exec_ne_memoryOutOfRange hr h)
    · exact absurd rfl (execUnknown_ne_memoryOutOfRange hr h)
  · rintro (⟨hp, rfl⟩ | ⟨hp, ho, hn, rfl⟩)
    · exact Host.Outcome.next.inj (h.symm.trans (step_of_pc_gt hr hp))
    · exact Host.Outcome.next.inj (h.symm.trans (step_of_operands_missing hr hp ho hn))

/-- Settles O19: HLT has no operands, so it runs in the last cell too. -/
theorem hltStopsTheCore : Obligations.HltStopsTheCore :=
  ⟨decode_encode_append .hlt, exec_hlt, fun s hr hp ho =>
    (step_of_standsAtPc hr (standsAtPc_of_hlt ho) (Nat.succ_le_succ hp)).trans (exec_hlt s)⟩

/-- Settles O55: the word's instruction stands at `pc`, where three bytes always fit. -/
theorem placedWordRunsNext : Obligations.PlacedWordRunsNext := by
  intro s nbits w i hp h
  have hfit : s.pc.toNat + (encode i).length ≤ 256 := by
    have := length_encode_le i
    omega
  exact step_of_standsAtPc rfl (standsAtPc_withFetchWord h hfit) hfit

end Sys2Proof.Proofs
end

section
/-! SUPPORT. Runs: what a bounded run answers, by its steps, and what the host's operations do to a stopped
core (rules R105, R106 and R240). -/

namespace Sys2Proof.Machine

variable {s t : State} {h g : HostSession} {k m n : Nat} {r : RunResult}

/-! ## How a state ends a run (rule R241) -/

/-- A result comes from a `HALTED` core, or from the fault record of a `FAULTED` one. -/
theorem termination_cases (ht : s.termination = some r) :
    (s.run = .halted ∧ r = .halted) ∨
      (s.run = .faulted ∧ ∃ f, s.faultRecord = some f ∧ r = .fault f.cause f.info) := by
  cases hr : s.run with
  | running => rw [termination_of_running hr] at ht; cases ht
  | halted => rw [termination_of_halted hr] at ht; cases ht; exact .inl ⟨rfl, rfl⟩
  | faulted =>
    cases hf : s.faultRecord with
    | none => simp only [State.termination, hr, hf] at ht; cases ht
    | some f => rw [termination_of_faulted hr hf] at ht; cases ht; exact .inr ⟨rfl, f, rfl, rfl⟩

/-- Under the invariant every stopped core has a result: a `FAULTED` one has its record (rule R30). -/
theorem State.Inv.exists_termination (hs : s.Inv) (hr : s.run ≠ .running) : ∃ r, s.termination = some r := by
  cases hrun : s.run with
  | running => exact absurd hrun hr
  | halted => exact ⟨_, termination_of_halted hrun⟩
  | faulted =>
    obtain ⟨f, hf⟩ := Option.isSome_iff_exists.mp (hs.fault_iff.mpr hrun)
    exact ⟨_, termination_of_faulted hrun hf⟩

/-! ## Bounded runs (rule R106) -/

/-- A stopped core takes no step under any limit. Without a fault record, which the invariant excludes, a
`FAULTED` one has no result. -/
theorem runFor_of_stopped (hr : s.run ≠ .running) : ∃ r, ∀ n, runFor n s = (r, s) := by
  cases ht : s.termination with
  | some r => exact ⟨r, fun n => runFor_of_termination ht⟩
  | none =>
    refine ⟨.stepLimit, fun n => ?_⟩
    unfold runFor
    rw [ht]
    cases n with
    | zero => rfl
    | succ n =>
      cases hrun : s.run with
      | running => exact absurd hrun hr
      | halted => simp only [step_of_halted hrun]
      | faulted => simp only [step_of_faulted hrun]

theorem runFor_raise (q : Raise) : runFor n (s.raise q) = (.fault q.cause q.info, s.raise q) :=
  runFor_of_termination (termination_of_faulted (s.raise_run q) (s.raise_faultRecord q))

/-- A run of `m + n` steps is one of `m`, continued if the limit stopped it. -/
theorem runFor_add (m n : Nat) (s : State) :
    runFor (m + n) s = if (runFor m s).1 = .stepLimit then runFor n (runFor m s).2 else runFor m s := by
  have stopped {s : State} (hr : s.run ≠ .running) (m : Nat) :
      runFor (m + n) s = if (runFor m s).1 = .stepLimit then runFor n (runFor m s).2 else runFor m s := by
    obtain ⟨r, hrun⟩ := runFor_of_stopped hr
    rw [hrun, hrun, hrun, ite_self]
  induction m generalizing s with
  | zero =>
    by_cases hr : s.run = .running
    · rw [runFor_zero hr, if_pos rfl, Nat.zero_add]
    · exact stopped hr 0
  | succ m ih =>
    by_cases hr : s.run = .running
    · obtain ⟨t, hs⟩ := step_next_of_running hr
      rw [Nat.succ_add, runFor_succ hr hs, runFor_succ hr hs, ih]
    · exact stopped hr (m + 1)

/-- `n` steps, at most `k`, lead from `s` to `t`, where the run has ended with result `r` or its limit
`k` is reached. -/
def RunsTo (k n : Nat) (s : State) (r : RunResult) (t : State) : Prop :=
  n ≤ k ∧ StepsTo n s t ∧ (t.termination = some r ∨ (n = k ∧ t.run = .running ∧ r = .stepLimit))

/-- Steps to the end or the limit are what a bounded run takes. -/
theorem RunsTo.runFor_eq (hto : RunsTo k n s r t) : runFor k s = (r, t) := by
  induction n generalizing s k with
  | zero =>
    obtain ⟨-, rfl, ht | ⟨rfl, hr, rfl⟩⟩ := hto
    · exact runFor_of_termination ht
    · exact runFor_zero hr
  | succ n ih =>
    obtain ⟨hle, ⟨u, hs, hsteps⟩, hend⟩ := hto
    obtain ⟨k, rfl⟩ : ∃ j, k = j + 1 := ⟨k - 1, by omega⟩
    rw [runFor_succ (step_inv hs).1 hs]
    exact ih ⟨Nat.le_of_succ_le_succ hle, hsteps, hend.imp_right (And.imp_left Nat.succ.inj)⟩

/-- Under the invariant a bounded run always ends or reaches its limit. -/
theorem State.Inv.runsTo_runFor (hs : s.Inv) (k : Nat) : ∃ n, RunsTo k n s (runFor k s).1 (runFor k s).2 := by
  induction k generalizing s with
  | zero =>
    by_cases hr : s.run = .running
    · rw [runFor_zero hr]
      exact ⟨0, le_rfl, rfl, .inr ⟨rfl, hr, rfl⟩⟩
    · obtain ⟨r, ht⟩ := hs.exists_termination hr
      rw [runFor_of_termination ht]
      exact ⟨0, le_rfl, rfl, .inl ht⟩
  | succ k ih =>
    by_cases hr : s.run = .running
    · obtain ⟨t, hstep⟩ := step_next_of_running hr
      obtain ⟨n, hle, hsteps, hend⟩ := ih (Proofs.stepKeepsTheInvariant s t hs hstep)
      rw [runFor_succ hr hstep]
      exact ⟨n + 1, Nat.succ_le_succ hle, ⟨t, hstep, hsteps⟩,
        hend.imp_right (And.imp_left (congrArg (· + 1)))⟩
    · obtain ⟨r, ht⟩ := hs.exists_termination hr
      rw [runFor_of_termination ht]
      exact ⟨0, Nat.zero_le _, rfl, .inl ht⟩

theorem State.Inv.runFor_eq_iff (hs : s.Inv) : runFor k s = (r, t) ↔ ∃ n, RunsTo k n s r t := by
  constructor
  · intro h
    have hto := hs.runsTo_runFor k
    rwa [h] at hto
  · rintro ⟨n, hto⟩
    exact hto.runFor_eq

/-- From a `RUNNING` state a run takes no step exactly if it may take none. -/
theorem RunsTo.steps_eq_zero_iff (hto : RunsTo k n s r t) (hr : s.run = .running) : n = 0 ↔ k = 0 := by
  obtain ⟨hle, hsteps, hend⟩ := hto
  constructor
  · rintro rfl
    obtain rfl := hsteps
    obtain ht | ⟨hk, -, -⟩ := hend
    · exact absurd hr (termination_eq_some ht).1
    · exact hk.symm
  · rintro rfl
    exact Nat.le_zero.mp hle

/-- A run without a limit ends where steps lead to a stopped core (rule R241). -/
theorem State.Inv.runEnds_iff (hs : s.Inv) (hr : s.run = .running) :
    RunEnds s r t ↔ ∃ n, StepsTo n s t ∧ t.termination = some r := by
  constructor
  · rintro ⟨-, ht, k, hrun⟩
    obtain ⟨n, -, hsteps, -⟩ := hs.runFor_eq_iff.mp hrun
    exact ⟨n, hsteps, ht⟩
  · rintro ⟨n, hsteps, ht⟩
    exact ⟨hr, ht, n, RunsTo.runFor_eq ⟨le_rfl, hsteps, .inl ht⟩⟩

/-- A run that has ended is the same under every longer limit. -/
theorem runFor_add_of_ended (hrun : runFor m s = (r, t)) (ht : t.termination = some r) (n : Nat) :
    runFor (m + n) s = (r, t) := by
  rw [runFor_add, hrun, if_neg (termination_eq_some ht).2]

/-! ## Zero bytes under `SKIP` (rule R104) -/

theorem step_zero_skip (hr : s.run = .running) (hpol : s.unknownOpcodePolicy = .skip) (hp : s.pc.toNat ≤ 255)
    (h0 : s.mem.read s.pc.toNat = 0x00) : step s = .next (s.advance 1) := by
  have ho : s.opcodeAtPc = 0x00 := h0
  rw [step_of_unknown hr (by rw [ho]; decide) (by rw [ho]; exact hp), execUnknown_skip _ hpol]

/-- With `n` cells left, all zero, a run of `n + 1` steps ends at the fetch from address 256. -/
theorem runFor_zeros (hr : s.run = .running) (hpol : s.unknownOpcodePolicy = .skip)
    (hn : s.pc.toNat + n = 256) (h0 : ∀ x, s.pc.toNat ≤ x → x ≤ 255 → s.mem.read x = 0x00) :
    runFor (n + 1) s = (.fault .memoryOutOfRange 256, (s.setPc 256).raise ⟨.memoryOutOfRange, 256⟩) := by
  induction n generalizing s with
  | zero =>
    have hpc : s.pc.toNat = 256 := hn
    have hs : s.setPc 256 = s := by rw [← (BitVec.eq_of_toNat_eq hpc : s.pc = 256)]; rfl
    have hstep := step_of_pc_gt hr (by omega)
    rw [hpc] at hstep
    rw [hs, runFor_succ hr hstep]
    exact runFor_raise ⟨.memoryOutOfRange, 256⟩
  | succ n ih =>
    have hp : s.pc.toNat ≤ 255 := by omega
    have hadv : (s.advance 1).pc.toNat = s.pc.toNat + 1 := s.advance_pc_toNat 1 hp (by decide)
    rw [runFor_succ hr (step_zero_skip hr hpol hp (h0 _ le_rfl hp))]
    exact ih hr hpol (by omega) fun x hx => h0 x (by omega)

/-! ## The host and a stopped core (rules R233 and R240) -/

/-- A step asked of a core that is not `RUNNING` is refused (log entry 13). -/
theorem hostStep_of_stopped (hr : h.core.run ≠ .running) : hostStep h = (.refused, h) := by
  cases hrun : h.core.run with
  | running => exact absurd hrun hr
  | halted => simp only [hostStep, step_of_halted hrun]
  | faulted => simp only [hostStep, step_of_faulted hrun]

/-- The host may not load a core that has stopped. -/
theorem HostSession.Inv.hostLoad_of_stopped (hh : h.Inv) (hr : h.core.run ≠ .running) (bytes : List Byte) :
    hostLoad bytes h = (.refused, h) :=
  if_neg fun hopen => hr (hh.load_open hopen).1

/-- Every operation but reset answers once on a stopped core and leaves the session as it is. -/
theorem HostSession.Inv.hostDoes_of_stopped (hh : h.Inv) (hr : h.core.run ≠ .running) {op : HostOp}
    (hop : ∀ d, op ≠ .reset d) :
    ∃ answer, ∀ reply g, HostDoes op h reply g ↔ (reply, g) = (answer, h) := by
  cases op with
  | reset d => exact absurd rfl (hop d)
  | load bytes => exact ⟨.refused, fun _ _ => by rw [HostDoes, hh.hostLoad_of_stopped hr]⟩
  | step => exact ⟨.refused, fun _ _ => by rw [HostDoes, hostStep_of_stopped hr]⟩
  | run => exact ⟨.refused, fun _ _ => hostRun_of_stopped hr⟩
  | readState => exact ⟨_, fun _ _ => Iff.rfl⟩
  | readOut => exact ⟨_, fun _ _ => Iff.rfl⟩

/-- The host's run under a limit, by the core it leaves (rule R233). -/
theorem eq_hostRunFor_iff {reply : HostReply} :
    (reply, g) = hostRunFor k h ↔
      ∃ r, runFor k h.core = (r, g.core) ∧ reply = .runResult r ∧
        (g.loadOpen = true ↔ h.loadOpen = true ∧ k = 0) := by
  have hopen : g.loadOpen = (h.loadOpen && decide (k = 0)) ↔
      (g.loadOpen = true ↔ h.loadOpen = true ∧ k = 0) := by
    rw [Bool.eq_iff_iff, Bool.and_eq_true, decide_eq_true_eq]
  constructor
  · intro hg
    obtain ⟨rfl, rfl⟩ := Prod.mk.inj hg
    exact ⟨_, rfl, rfl, hopen.mp rfl⟩
  · rintro ⟨r, hrun, rfl, hload⟩
    obtain ⟨core, loadOpen⟩ := g
    obtain rfl : loadOpen = _ := hopen.mpr hload
    simp only [hostRunFor, hrun]

end Sys2Proof.Machine
end

section
/-! PROOFS. Runs: where the core has a step, how a run ends, and what only a reset undoes. -/

namespace Sys2Proof.Proofs

open Sys2Proof.Machine

/-- Settles O8: a step from `RUNNING` always has an outcome, and a stopped core has a result at once. -/
theorem coreStepsExactlyWhileRunning : Obligations.CoreStepsExactlyWhileRunning := by
  refine fun s => ⟨⟨fun ⟨_, h⟩ => (step_inv h).1, step_next_of_running⟩,
    fun hr => ⟨step_of_halted hr, ?_⟩, fun hr => ⟨step_of_faulted hr, fun f hf => ?_⟩, step_of_pc_gt⟩
  · exact fun n => runFor_of_termination (termination_of_halted hr)
  · exact fun n => runFor_of_termination (termination_of_faulted hr hf)

/-- Settles O43, by induction on the number of zero cells left. -/
theorem skipRunsThroughZerosToTheEnd : Obligations.SkipRunsThroughZerosToTheEnd := by
  intro s hr hpol hp h0
  have hn : 257 - s.pc.toNat = (256 - s.pc.toNat) + 1 := by omega
  rw [hn]
  exact runFor_zeros hr hpol (by omega) h0

/-- Settles O54: the composition holds of every state, and under the invariant a core without a result runs. -/
theorem runsComposeAcrossTheStepLimit : Obligations.RunsComposeAcrossTheStepLimit := by
  refine fun m n s => ⟨runFor_add m n s, fun hs hlim => ?_⟩
  obtain ⟨_, -, -, ht | ⟨-, hr, -⟩⟩ := hs.runsTo_runFor m
  · exact absurd hlim (termination_eq_some ht).2
  · exact hr

/-- Settles O53: two ends of one run are the end of the run under the sum of their limits. -/
theorem runReportsHowItEnded : Obligations.RunReportsHowItEnded := by
  refine ⟨fun s t r ⟨_, ht, _⟩ => termination_cases ht, ?_⟩
  rintro s t u r q ⟨-, ht, m, hm⟩ ⟨-, hu, n, hn⟩
  have hmn := runFor_add_of_ended hm ht n
  have hnm := runFor_add_of_ended hn hu m
  rw [Nat.add_comm] at hnm
  exact Prod.mk.inj (hmn.symm.trans hnm)

/-- Settles O49: reset reads nothing but the parameters, and every other operation leaves a stopped core. -/
theorem onlyResetLeavesAStoppedCore : Obligations.OnlyResetLeavesAStoppedCore := by
  refine ⟨fun d g h hc => congrArg (HostSession.afterReset · d) hc, fun _ _ => rfl, ?_⟩
  intro ops h g hh hr hops
  induction ops with
  | nil => rfl
  | cons op ops ih =>
    obtain ⟨answer, hans⟩ := hh.hostDoes_of_stopped hr fun d e => hops d (e ▸ List.mem_cons_self)
    have htail := ih fun d hd => hops d (List.mem_cons_of_mem _ hd)
    constructor
    · rintro ⟨reply, m, hdoes, hrest⟩
      obtain ⟨-, rfl⟩ := Prod.mk.inj ((hans reply m).mp hdoes)
      exact htail.mp hrest
    · exact fun hg => ⟨answer, h, (hans answer h).mpr rfl, htail.mpr hg⟩

/-- Settles O56: with a limit the host's run is the bounded run, whose steps the invariant counts; without
one it is a run that ends. -/
theorem hostRunStepsToTheEndOrTheLimit : Obligations.HostRunStepsToTheEndOrTheLimit := by
  refine fun h hs => ⟨fun hr reply g => ?_, fun hr hk reply g => ?_,
    fun hr k hk => ⟨?_, fun reply g => ?_⟩, fun hr hk reply g => ?_⟩
  · rw [hostRun_of_stopped hr, Prod.mk.injEq]
  · rw [hostRun_of_limit hr hk, hostRunFor_zero hr, Prod.mk.injEq]
  · exact ⟨_, _, (hostRun_of_limit hr hk).mpr rfl⟩
  · rw [hostRun_of_limit hr hk, eq_hostRunFor_iff]
    constructor
    · rintro ⟨r, hrun, rfl, hopen⟩
      obtain ⟨n, hto⟩ := hs.runFor_eq_iff.mp hrun
      have hzero := hto.steps_eq_zero_iff hr
      obtain ⟨hle, hsteps, hend⟩ := hto
      refine ⟨n, hle, hsteps, by rw [hopen, hzero], hend.imp (fun ht => ⟨r, ht, rfl⟩) ?_⟩
      rintro ⟨hn, hg, rfl⟩
      exact ⟨hn, hg, rfl⟩
    · rintro ⟨n, hle, hsteps, hopen, hend⟩
      obtain ⟨r, hto, rfl⟩ : ∃ r, RunsTo k n h.core r g.core ∧ reply = .runResult r := by
        obtain ⟨r, ht, hreply⟩ | ⟨hn, hg, hreply⟩ := hend
        · exact ⟨r, ⟨hle, hsteps, .inl ht⟩, hreply⟩
        · exact ⟨_, ⟨hle, hsteps, .inr ⟨hn, hg, rfl⟩⟩, hreply⟩
      exact ⟨r, hto.runFor_eq, rfl, by rw [hopen, hto.steps_eq_zero_iff hr]⟩
  · rw [hostRun_of_no_limit hr hk]
    simp only [hs.runEnds_iff hr]
    constructor
    · rintro ⟨r, t, ⟨n, hsteps, ht⟩, hg⟩
      obtain ⟨rfl, rfl⟩ := Prod.mk.inj hg
      exact ⟨n, r, hsteps, rfl, ht, rfl⟩
    · rintro ⟨n, r, hsteps, hopen, ht, rfl⟩
      obtain ⟨core, loadOpen⟩ := g
      obtain rfl : loadOpen = false := hopen
      exact ⟨r, core, ⟨n, hsteps, ht⟩, rfl⟩

end Sys2Proof.Proofs
end

section
/-! SUPPORT. The fetch that leaves memory and the write of one general register, in the terms of the
instruction statements (rules R24 and R107). -/

namespace Sys2Proof.Machine

variable {a : Byte}

/-- Near the top of memory the operand bytes are missing, whatever they would be (rule R107). -/
theorem operandFetchFaultsFrom_of_count {op : Byte} {first : Nat} (ho : op ≠ Opcode.hlt)
    (hn : 256 ≤ first + operandCount op) : OperandFetchFaultsFrom op first := by
  rintro s hr hfirst hp rfl
  exact step_of_operands_missing hr hp ho (by omega)

theorem regsKeptExcept_setReg (s : State) (i : Fin 8) (v : Byte) : RegsKeptExcept s (s.setReg i v) i :=
  fun k hk => by rw [State.reg_setReg, if_neg hk]

/-- Under `ALIASED` the write of R7 is a write of `SP` (rule R24). -/
theorem sp_setReg_operand (s : State) (v : Byte) (ha : a.toNat < 8) :
    (s.setReg ⟨a.toNat, ha⟩ v).sp = if s.regAlias = .aliased ∧ a = 7 then v else s.sp := by
  have h7 : (⟨a.toNat, ha⟩ : Fin 8) = 7 ↔ a = 7 := index_eq_iff _ ha
  simp only [State.sp_setReg, h7]

/-- Under `ALIASED` the write of R6 is a write of `FL` (rule R24). -/
theorem fl_setReg_operand (s : State) (v : Byte) (ha : a.toNat < 8) :
    (s.setReg ⟨a.toNat, ha⟩ v).fl = if s.regAlias = .aliased ∧ a = 6 then v else s.fl := by
  have h6 : (⟨a.toNat, ha⟩ : Fin 8) = 6 ↔ a = 6 := index_eq_iff _ ha
  simp only [State.fl_setReg, h6]

end Sys2Proof.Machine
end

section
/-! PROOFS. Data movement: LDI, PRN, and the one after the other. -/

namespace Sys2Proof.Proofs

open Sys2Proof.Machine

/-- Settles O20: LDI is the one register write, seen in `SP` or `FL` where they are that register, and an
advance. -/
theorem ldiLoadsTheImmediate : Obligations.LdiLoadsTheImmediate := by
  refine ⟨fun a b => decode_encode_append (.ldi a b), fun a b s ha => exec_ldi_badIndex ha,
    fun a b s ha => ⟨_, exec_ldi b s ha, ?_⟩, operandFetchFaultsFrom_of_count (by decide) (by decide)⟩
  exact ⟨State.reg_setReg_self .., rfl, regsKeptExcept_setReg s _ b, sp_setReg_operand s b ha,
    fl_setReg_operand s b ha, rfl, fun _ => rfl, ⟨rfl, rfl, rfl⟩⟩

/-- Settles O21: PRN is one append to `OUT` and an advance, which touch nothing else. -/
theorem prnEmitsTheRegister : Obligations.PrnEmitsTheRegister := by
  refine ⟨fun a => decode_encode_append (.prn a), fun a s ha => exec_prn_badIndex ha,
    fun a s ha => ⟨_, exec_prn s ha, ?_⟩, operandFetchFaultsFrom_of_count (by decide) (by decide)⟩
  exact ⟨rfl, rfl, fun _ => rfl, rfl, rfl, fun _ => rfl, ⟨rfl, rfl, rfl⟩⟩

/-- Settles O31: the register PRN reads is the one LDI has written, and LDI emits nothing. -/
theorem ldiThenPrnOutputsTheValue : Obligations.LdiThenPrnOutputsTheValue := by
  intro a v s t ha h
  obtain ⟨-, -, hldi, -⟩ := ldiLoadsTheImmediate
  obtain ⟨-, -, hprn, -⟩ := prnEmitsTheRegister
  obtain ⟨t', ht, hreg, -, -, -, -, hout, -⟩ := hldi a v s ha
  obtain rfl : t = t' := Host.Outcome.next.inj (h.symm.trans ht)
  obtain ⟨u, hu, houtu, -⟩ := hprn a t ha
  exact ⟨u, hu, by rw [houtu, hreg, hout]⟩

end Sys2Proof.Proofs
end

section
/-! SUPPORT. What the ALU leaves: a result in its destination register, or a comparison in all of `FL`
(rules R140, R141 and R144). -/

namespace Sys2Proof.Machine

variable {a : Byte} {s t : State} {x y : Byte}

/-! ## A result in a register -/

/-- Beside the register of its operand, which `SP` or `FL` may be under `ALIASED`, a three-byte register write
changes only `pc` (rule R24). -/
theorem frame_of_operand_write {v : Byte} (ha : a.toNat < 8) (ht : t = (s.setReg ⟨a.toNat, ha⟩ v).advance 3) :
    t.pc = s.pc + 3 ∧ RegsKeptExcept s t ⟨a.toNat, ha⟩ ∧
    t.sp = (if s.regAlias = .aliased ∧ a = 7 then t.reg ⟨a.toNat, ha⟩ else s.sp) ∧
    t.fl = (if s.regAlias = .aliased ∧ a = 6 then t.reg ⟨a.toNat, ha⟩ else s.fl) ∧
    t.out = s.out ∧ MemKept s t ∧ ControlKept s t := by
  subst ht
  rw [State.reg_advance, State.reg_setReg_self]
  exact ⟨rfl, regsKeptExcept_setReg s _ v, sp_setReg_operand s v ha, fl_setReg_operand s v ha, rfl,
    fun _ => rfl, ⟨rfl, rfl, rfl⟩⟩

/-! ## A comparison in `FL` -/

theorem compareFlags_of_eq (h : x.toNat = y.toNat) : compareFlags x y = flagE :=
  if_pos (BitVec.eq_of_toNat_eq h)

theorem compareFlags_of_ne (h : x.toNat ≠ y.toNat) :
    compareFlags x y = if x.toNat > y.toNat then flagG else flagL :=
  if_neg fun e => h (congrArg BitVec.toNat e)

theorem compareFlags_of_gt (h : x.toNat > y.toNat) : compareFlags x y = flagG :=
  (compareFlags_of_ne h.ne').trans (if_pos h)

theorem compareFlags_of_lt (h : x.toNat < y.toNat) : compareFlags x y = flagL :=
  (compareFlags_of_ne h.ne).trans (if_neg h.not_gt)

/-- JEQ's condition after CMP: neither `G` nor `L` is the flag `E` (rules R144 and R184). -/
theorem compareFlags_eq_flagE_iff (x y : Byte) : compareFlags x y = flagE ↔ x = y := by
  constructor
  · intro h
    obtain ⟨he, -⟩ | ⟨-, hg⟩ | ⟨-, hl⟩ := compareFlags_cases x y
    · exact he
    · exact absurd (hg.symm.trans h) (by decide)
    · exact absurd (hl.symm.trans h) (by decide)
  · rintro rfl
    exact compareFlags_of_eq rfl

end Sys2Proof.Machine
end

section
/-! PROOFS. The ALU: ADD, MUL, CMP, and JEQ after CMP. -/

namespace Sys2Proof.Proofs

open Sys2Proof.Machine

/-- Settles O22: ADD is the write of the reduced sum to the register of its first operand, and an advance. -/
theorem addWritesTheSumModulo256 : Obligations.AddWritesTheSumModulo256 := by
  refine ⟨fun a b => decode_encode_append (.add a b), fun a b s ha => exec_add_badFirst ha,
    fun a b s ha hb => exec_add_badSecond ha hb,
    fun a b s ha hb => ⟨_, exec_add s ha hb, ?_, frame_of_operand_write ha rfl⟩,
    operandFetchFaultsFrom_of_count (by decide) (by decide)⟩
  rw [State.reg_advance, State.reg_setReg_self, addBytes_toNat]

/-- Settles O23: MUL is the write of the reduced product to the register of its first operand, and an
advance. -/
theorem mulWritesTheProductModulo256 : Obligations.MulWritesTheProductModulo256 := by
  refine ⟨fun a b => decode_encode_append (.mul a b), fun a b s ha => exec_mul_badFirst ha,
    fun a b s ha hb => exec_mul_badSecond ha hb,
    fun a b s ha hb => ⟨_, exec_mul s ha hb, ?_, frame_of_operand_write ha rfl⟩,
    operandFetchFaultsFrom_of_count (by decide) (by decide)⟩
  rw [State.reg_advance, State.reg_setReg_self, mulBytes_toNat]

/-- Settles O24: CMP is the write of one flag to all of `FL`, which is R6 under `ALIASED`, and an advance. -/
theorem cmpWritesTheWholeFlagsRegister : Obligations.CmpWritesTheWholeFlagsRegister := by
  refine ⟨fun a b => decode_encode_append (.cmp a b), fun a b s ha => exec_cmp_badFirst ha,
    fun a b s ha hb => exec_cmp_badSecond ha hb, fun a b s ha hb => ⟨_, exec_cmp s ha hb, ?_⟩,
    operandFetchFaultsFrom_of_count (by decide) (by decide)⟩
  rw [State.fl_advance, State.fl_setFl]
  exact ⟨compareFlags_of_eq, compareFlags_of_gt, compareFlags_of_lt, congrArg (· + 3) (State.setFl_pc ..),
    State.reg_setFl _ _, State.sp_setFl .., State.setFl_out ..,
    fun x => congrArg (Memory.read · x) (State.setFl_mem ..),
    ⟨State.setFl_run .., State.setFl_faultRecord .., State.setFl_config ..⟩⟩

/-- Settles O34: `FL` after CMP is the flag JEQ asks for exactly when the operands were equal. -/
theorem branchTakenIffOperandsWereEqual : Obligations.BranchTakenIffOperandsWereEqual := by
  intro a b c s t ha hb hc h
  have hfl : t.fl = flagE ↔ s.reg ⟨a.toNat, ha⟩ = s.reg ⟨b.toNat, hb⟩ := by
    rw [← Host.Outcome.next.inj ((exec_cmp s ha hb).symm.trans h), State.fl_advance, State.fl_setFl]
    exact compareFlags_eq_flagE_iff _ _
  by_cases he : s.reg ⟨a.toNat, ha⟩ = s.reg ⟨b.toNat, hb⟩
  · exact ⟨_, exec_jeq_taken _ (hfl.mpr he) hc, fun _ => zext9_toNat _, absurd he⟩
  · exact ⟨_, exec_jeq_untaken c (mt hfl.mp he), fun e => absurd e he, fun _ => rfl⟩

end Sys2Proof.Proofs
end

section
/-! SUPPORT. A move of `SP` seen by the registers: under `ALIASED` it is a write of R7 (rules R24, R161 and
R162). -/

namespace Sys2Proof.Machine

variable {a : Byte} {s t u : State}

theorem ControlKept.trans (hst : ControlKept s t) (htu : ControlKept t u) : ControlKept s u :=
  ⟨htu.run.trans hst.run, htu.faultRecord.trans hst.faultRecord, htu.config.trans hst.config⟩

theorem controlKept_setSp (s : State) (v : Byte) : ControlKept s (s.setSp v) :=
  ⟨State.setSp_run .., State.setSp_faultRecord .., State.setSp_config ..⟩

theorem memKept_setSp (s : State) (v : Byte) : MemKept s (s.setSp v) :=
  fun x => congrArg (Memory.read · x) (State.setSp_mem ..)

/-- Under `ALIASED` the operand 7 reads back a write of `SP` (rule R24). -/
theorem reg_setSp_operand (s : State) (v : Byte) (ha : a.toNat < 8) :
    (s.setSp v).reg ⟨a.toNat, ha⟩ =
      if s.regAlias = .aliased ∧ a = 7 then v else s.reg ⟨a.toNat, ha⟩ := by
  have h7 : (⟨a.toNat, ha⟩ : Fin 8) = 7 ↔ a = 7 := index_eq_iff _ ha
  simp only [State.reg_setSp, h7]

/-- The operand 7 names `SP` under `ALIASED` (rule R24). -/
theorem reg_operand_eq_sp (h : s.regAlias = .aliased ∧ a = 7) (ha : a.toNat < 8) :
    s.reg ⟨a.toNat, ha⟩ = s.sp := by
  obtain ⟨hal, rfl⟩ := h
  exact (State.sp_of_aliased hal).symm

/-- The operand 6 names `FL` under `ALIASED` (rule R24). -/
theorem reg_operand_eq_fl (h : s.regAlias = .aliased ∧ a = 6) (ha : a.toNat < 8) :
    s.reg ⟨a.toNat, ha⟩ = s.fl := by
  obtain ⟨hal, rfl⟩ := h
  exact (State.fl_of_aliased hal).symm

/-- POP writes its register first and then checks and increments what `SP` is by then (rule R162). -/
theorem sp_setReg_eq_popBase (s : State) (ha : a.toNat < 8) :
    (s.setReg ⟨a.toNat, ha⟩ (s.mem.read s.sp.toNat)).sp = s.popBase a :=
  sp_setReg_operand s _ ha

/-- A POP of a register other than R7 increments `SP` itself, under `ALIASED` too. -/
theorem popBase_of_ne_seven (h : ¬(s.regAlias = .aliased ∧ a = 7)) : s.popBase a = s.sp := if_neg h

theorem popBase_of_seven (h : s.regAlias = .aliased ∧ a = 7) :
    s.popBase a = s.mem.read s.sp.toNat := if_pos h

end Sys2Proof.Machine
end

section
/-! PROOFS. The stack: PUSH, POP, and the one after the other. -/

namespace Sys2Proof.Proofs

open Sys2Proof.Machine

/-- Settles O25: PUSH is the move of `SP`, one store at where it then is, and an advance. -/
theorem pushStoresBelowTheStackPointer : Obligations.PushStoresBelowTheStackPointer := by
  refine ⟨fun a => decode_encode_append (.push a), fun a s ha => exec_push_badIndex ha,
    fun a s ha hs => exec_push_full ha hs, fun a s ha hs => ⟨_, exec_push s ha hs, ?_⟩,
    operandFetchFaultsFrom_of_count (by decide) (by decide)⟩
  have hctl := controlKept_setSp s (s.sp - 1)
  exact ⟨State.sp_setSp .., (Memory.read_write_self ..).trans (reg_setSp_operand s _ ha),
    fun x hx => Memory.read_write_ne _ _ hx, congrArg (· + 2) (State.setSp_pc ..), State.reg_setSp s _,
    State.fl_setSp .., State.setSp_out .., hctl.trans ⟨rfl, rfl, rfl⟩⟩

/-- Settles O26: POP is the write of its register, the move of what `SP` is by then, and an advance. -/
theorem popReadsAtTheStackPointer : Obligations.PopReadsAtTheStackPointer := by
  refine ⟨fun a => decode_encode_append (.pop a), fun a s ha => exec_pop_badIndex ha,
    fun a s ha hs => exec_pop_top ha ((sp_setReg_eq_popBase s ha).trans hs),
    fun a s ha hs => ⟨_, exec_pop s ha fun h => hs ((sp_setReg_eq_popBase s ha).symm.trans h), ?_⟩,
    operandFetchFaultsFrom_of_count (by decide) (by decide)⟩
  rw [sp_setReg_eq_popBase]
  have hset : ControlKept s (s.setReg ⟨a.toNat, ha⟩ (s.mem.read s.sp.toNat)) := ⟨rfl, rfl, rfl⟩
  have hctl := hset.trans (controlKept_setSp _ (s.popBase a + 1))
  refine ⟨State.sp_setSp .., ?_, fun k hk => ?_, ?_, congrArg (· + 2) (State.setSp_pc ..),
    State.setSp_out .., memKept_setSp _ _, hctl.trans ⟨rfl, rfl, rfl⟩⟩
  · rw [State.reg_advance, reg_setSp_operand, State.reg_setReg_self, State.setReg_regAlias]
    split
    · next h => rw [popBase_of_seven h]
    · rfl
  · rw [State.reg_advance, State.reg_setSp, State.reg_setReg, if_neg hk, State.setReg_regAlias]
    split
    · next h =>
      have ha7 : a ≠ 7 := fun e => hk (h.2.trans ((index_eq_iff _ ha).mpr e).symm)
      rw [popBase_of_ne_seven fun h7 => ha7 h7.2]
    · rfl
  · rw [State.fl_advance, State.fl_setSp, fl_setReg_operand]

/-- Settles O32: what POP increments is the decremented `SP`, be it `SP` or the byte that PUSH R7 stored, so
each cell gets back its value. -/
theorem pushThenPopRestores : Obligations.PushThenPopRestores := by
  intro a s ha hs
  obtain ⟨-, -, -, hpush, -⟩ := pushStoresBelowTheStackPointer
  obtain ⟨-, -, -, hpop, -⟩ := popReadsAtTheStackPointer
  obtain ⟨t, ht, hsp, hread, hmem, hpc, hreg, hfl, hout, hctl⟩ := hpush a s ha hs
  have htop : t.mem.read t.sp.toNat =
      if s.regAlias = .aliased ∧ a = 7 then s.sp - 1 else s.reg ⟨a.toNat, ha⟩ := by rw [hsp, hread]
  have hal : t.regAlias = s.regAlias := regAlias_eq_of_config_eq hctl.config
  have hbase : t.popBase a = s.sp - 1 := by
    by_cases h : t.regAlias = .aliased ∧ a = 7
    · rw [popBase_of_seven h, htop, if_pos (hal ▸ h)]
    · rw [popBase_of_ne_seven h, hsp]
  obtain ⟨u, hu, hsp', hreg', hregs', hfl', hpc', hout', hmem', hctl'⟩ :=
    hpop a t ha fun h => sub_one_ne_top hs (hbase.symm.trans h)
  refine ⟨t, u, ht, hu, hctl, hctl.trans hctl', hpc, ?_, hsp, ?_, fun k => ?_, ?_, hout'.trans hout,
    fun x hx => (hmem' x).trans (hmem x hx)⟩
  · rw [hpc', hpc, BitVec.add_assoc]
    rfl
  · rw [hsp', ← State.popBase, hbase, sub_one_add_one]
  · by_cases hk : k = ⟨a.toNat, ha⟩
    · subst hk
      rw [hreg', htop, hal]
      split
      · next h => rw [sub_one_add_one, reg_operand_eq_sp h]
      · rfl
    · rw [hregs' k hk, hreg, hal, hsp, sub_one_add_one]
      split
      · next h => rw [h.2, State.sp_of_aliased h.1]
      · rfl
  · rw [hfl', htop, hfl, hal]
    split
    · next h => rw [if_neg fun h7 => absurd (h.2.symm.trans h7.2) (by decide), reg_operand_eq_fl h]
    · rfl

end Sys2Proof.Proofs
end

section
/-! SUPPORT. What a jump leaves unchanged, and the RET standing at `pc` (rules R27 and R182). -/

namespace Sys2Proof.Machine

/-- A write of `pc` changes nothing else (rule R27). -/
theorem frame_setPc (s : State) (p : PcWord) :
    RegsKept s (s.setPc p) ∧ (s.setPc p).sp = s.sp ∧ (s.setPc p).fl = s.fl ∧ (s.setPc p).out = s.out ∧
      MemKept s (s.setPc p) ∧ ControlKept s (s.setPc p) :=
  ⟨fun _ => rfl, rfl, rfl, rfl, fun _ => rfl, ⟨rfl, rfl, rfl⟩⟩

theorem standsAtPc_of_ret {s : State} (h : s.opcodeAtPc = Opcode.ret) : StandsAtPc s .ret :=
  congrArg (· :: []) h.symm

end Sys2Proof.Machine
end

section
/-! PROOFS. Control transfer: CALL, RET, JMP, JEQ, and RET after CALL. -/

namespace Sys2Proof.Proofs

open Sys2Proof.Machine

/-- Settles O27: CALL is the move of `SP`, one store at where it then is, and a jump to the register as it is
by then. -/
theorem callPushesTheReturnAddress : Obligations.CallPushesTheReturnAddress := by
  refine ⟨fun a => decode_encode_append (.call a), fun a s ha => exec_call_badIndex ha,
    fun a s ha hs => exec_call_full ha hs, fun a s ha hs hp => exec_call_noReturn ha hs (by omega),
    fun a s ha hs hp => ⟨_, exec_call s ha hs (by omega), ?_⟩,
    operandFetchFaultsFrom_of_count (by decide) (by decide)⟩
  have hread := Memory.read_write_self s.mem (s.sp - 1).toNat (BitVec.ofNat 8 (s.pc.toNat + 2))
  have hbyte : (BitVec.ofNat 8 (s.pc.toNat + 2)).toNat = s.pc.toNat + 2 :=
    (BitVec.toNat_ofNat ..).trans (Nat.mod_eq_of_lt (by omega))
  have htarget := reg_setSp_operand s (s.sp - 1) ha
  have hctl := controlKept_setSp s (s.sp - 1)
  exact ⟨State.sp_setSp .., (congrArg BitVec.toNat hread).trans hbyte,
    fun x hx => Memory.read_write_ne _ _ hx, (zext9_toNat _).trans (congrArg BitVec.toNat htarget),
    State.reg_setSp s _, State.fl_setSp .., State.setSp_out .., hctl.trans ⟨rfl, rfl, rfl⟩⟩

/-- Settles O28: RET is the move of `SP` and a jump to the byte it pops; it fits in the last cell too. -/
theorem retJumpsToThePoppedByte : Obligations.RetJumpsToThePoppedByte := by
  refine ⟨decode_encode_append .ret, fun s hs => exec_ret_top hs, fun s hs => ⟨_, exec_ret s hs, ?_⟩,
    fun s hr hp ho => step_of_standsAtPc hr (standsAtPc_of_ret ho) (Nat.succ_le_succ hp)⟩
  have hctl := controlKept_setSp s (s.sp + 1)
  exact ⟨zext9_toNat _, State.sp_setSp .., State.reg_setSp s _, State.fl_setSp .., State.setSp_out ..,
    memKept_setSp s _, hctl.trans ⟨rfl, rfl, rfl⟩⟩

/-- Settles O29: JMP is one write of `pc`. -/
theorem jmpGoesToTheRegister : Obligations.JmpGoesToTheRegister :=
  ⟨fun a => decode_encode_append (.jmp a), fun _ _ ha => exec_jmp_badIndex ha,
    fun _ s ha => ⟨_, exec_jmp s ha, zext9_toNat _, frame_setPc s _⟩,
    operandFetchFaultsFrom_of_count (by decide) (by decide)⟩

/-- Settles O30: JEQ is one write of `pc`, to the register if `FL` is `E`, and past itself if not. -/
theorem jeqBranchesExactlyOnEqual : Obligations.JeqBranchesExactlyOnEqual :=
  ⟨fun a => decode_encode_append (.jeq a), fun _ _ hf ha => exec_jeq_badIndex hf ha,
    fun _ s ha hf => ⟨_, exec_jeq_taken s hf ha, zext9_toNat _, frame_setPc s _⟩,
    fun a s hf => ⟨_, exec_jeq_untaken a hf, rfl, frame_setPc s _⟩,
    operandFetchFaultsFrom_of_count (by decide) (by decide)⟩

/-- Settles O33: the byte RET pops is the return address CALL stored, and the `SP` it increments is the one
CALL decremented, which is never 255. -/
theorem callThenRetReturns : Obligations.CallThenRetReturns := by
  intro a s t u ha hs hp h husp hutop
  obtain ⟨-, -, -, -, hcall, -⟩ := callPushesTheReturnAddress
  obtain ⟨-, -, hret, -⟩ := retJumpsToThePoppedByte
  obtain ⟨t', ht, hsp, hread, -⟩ := hcall a s ha hs hp
  obtain rfl : t = t' := Host.Outcome.next.inj (h.symm.trans ht)
  have hdec : u.sp = s.sp - 1 := husp.trans hsp
  obtain ⟨w, hw, hpc, hspw, -⟩ := hret u fun he => sub_one_ne_top hs (hdec.symm.trans he)
  refine ⟨w, hw, BitVec.eq_of_toNat_eq ?_, by rw [hspw, hdec, sub_one_add_one]⟩
  calc w.pc.toNat = (u.mem.read u.sp.toNat).toNat := hpc
    _ = (t.mem.read (s.sp - 1).toNat).toNat := by rw [hutop, hsp]
    _ = s.pc.toNat + 2 := hread
    _ = (s.pc + 2).toNat := (s.advance_pc_toNat 2 (by omega) (by decide)).symm

end Sys2Proof.Proofs
end

section
/-! SUPPORT. The fault of a step: where it comes from, and the first check of rule R212 that raises, said of the
instruction and, apart from it, of the bytes at `pc`. -/

namespace Sys2Proof.Machine

variable {i : Instr} {s t : State} {c : Cause} {n : Nat}

/-! ## Steps that end in `FAULTED` -/

theorem Effect.run_ne_faulted (he : Effect s t i) (hr : s.run = .running) : t.run ≠ .faulted := by
  rw [he.frame.run, hr]
  split <;> decide

/-- A step ends in `FAULTED` only by taking a fault: no row and no skipped opcode puts it there (rule R29). -/
theorem stepRaise_of_faulted (h : step s = .next t) (ht : t.run = .faulted) :
    ∃ r, StepRaise s r ∧ t = s.raise r := by
  obtain ⟨hr, hraise | ⟨-, i, -, he⟩ | ⟨-, -, -, rfl⟩⟩ := step_inv h
  · exact hraise
  · exact absurd ht (he.run_ne_faulted hr)
  · cases hr.symm.trans ht

/-- No step takes the ALU's own fault (rule R206). -/
theorem StepRaise.cause_ne_unsupportedOperation {r : Raise} (h : StepRaise s r) :
    r.cause ≠ .unsupportedOperation := by
  obtain ⟨rfl, -⟩ | ⟨rfl, -⟩ | ⟨rfl, -⟩ | ⟨i, -, -, hraise⟩ := h
  iterate 3 exact nofun
  obtain ⟨hc, -⟩ | ⟨hc, -⟩ | ⟨hc, -⟩ := hraise <;> rw [hc] <;> decide

/-! ## The checks of an instruction, in their order -/

/-- The stack check of an instruction whose accessed operands are in range: the `SP` value that would leave the
range, if one would (rule R204). -/
def stackFault (s : State) : Instr → Option Nat
  | .push _ | .call _ => if s.sp = 0 then some 0 else none
  | .pop a => if s.popBase a = 255 then some 255 else none
  | .ret => if s.sp = 255 then some 255 else none
  | _ => none

/-- The return address of a CALL that does not fit a byte (rule R205). -/
def returnFault (s : State) : Instr → Option Nat
  | .call _ => if 255 < s.pc.toNat + 2 then some (s.pc.toNat + 2) else none
  | _ => none

/-- The first check of an instruction that raises, and what: its accessed operands, the stack, the return
address (rule R212 from the register operands on). -/
def execFault (s : State) (i : Instr) : Option (Cause × Nat) :=
  (((accessedOperands s i).find? fun a => decide (7 < a.toNat)).map fun a => (.registerOutOfRange, a.toNat)).or
    (((stackFault s i).map (.stackOutOfRange, ·)).or ((returnFault s i).map (.returnAddressOutOfRange, ·)))

theorem find?_badIndex_eq_none_iff {l : List Byte} :
    l.find? (fun a => decide (7 < a.toNat)) = none ↔ ∀ a ∈ l, a.toNat < 8 := by
  simp only [List.find?_eq_none, decide_eq_true_eq, not_lt, Nat.lt_succ_iff]

theorem stackFault_eq_some_iff :
    stackFault s i = some n ↔ ((∃ a, i = .push a ∨ i = .call a) ∧ s.sp = 0 ∧ n = 0) ∨
      ((∃ a, i = .pop a ∧ s.popBase a = 255) ∨ (i = .ret ∧ s.sp = 255)) ∧ n = 255 := by
  cases i <;> simp [stackFault, eq_comm]

theorem returnFault_eq_some_iff :
    returnFault s i = some n ↔ (∃ a, i = .call a) ∧ 255 < s.pc.toNat + 2 ∧ n = s.pc.toNat + 2 := by
  cases i <;> simp [returnFault, eq_comm]

theorem exec_of_stackFault (hidx : ∀ a ∈ accessedOperands s i, a.toNat < 8) (h : stackFault s i = some n) :
    exec i s = .next (s.faultedWith .stackOutOfRange n) := by
  obtain ⟨⟨a, rfl | rfl⟩, hs, rfl⟩ | ⟨⟨a, rfl, hs⟩ | ⟨rfl, hs⟩, rfl⟩ := stackFault_eq_some_iff.mp h
  · exact exec_push_full (hidx a List.mem_cons_self) hs
  · exact exec_call_full (hidx a List.mem_cons_self) hs
  · exact exec_pop_top (hidx a List.mem_cons_self) ((sp_setReg_eq_popBase s _).trans hs)
  · exact exec_ret_top hs

theorem exec_of_returnFault (hidx : ∀ a ∈ accessedOperands s i, a.toNat < 8) (hst : stackFault s i = none)
    (h : returnFault s i = some n) : exec i s = .next (s.faultedWith .returnAddressOutOfRange n) := by
  obtain ⟨⟨a, rfl⟩, hp, rfl⟩ := returnFault_eq_some_iff.mp h
  exact exec_call_noReturn (hidx a List.mem_cons_self) (by simpa [stackFault] using hst) (by omega)

/-- An instruction takes the first check that raises. -/
theorem exec_of_execFault_eq_some (h : execFault s i = some (c, n)) : exec i s = .next (s.faultedWith c n) := by
  simp only [execFault, Option.or_eq_some_iff, Option.map_eq_some_iff, Option.map_eq_none_iff,
    find?_badIndex_eq_none_iff] at h
  obtain ⟨x, hx, heq⟩ | ⟨hidx, ⟨m, hm, heq⟩ | ⟨hst, m, hm, heq⟩⟩ := h <;> cases heq
  · exact exec_of_badIndex hx
  · exact exec_of_stackFault hidx hm
  · exact exec_of_returnFault hidx hst hm

/-- An instruction whose checks raise nothing has its whole effect. -/
theorem exec_of_execFault_eq_none (h : execFault s i = none) : ∃ t, Effect s t i ∧ exec i s = .next t := by
  simp only [execFault, Option.or_eq_none_iff, Option.map_eq_none_iff, find?_badIndex_eq_none_iff] at h
  obtain ⟨hidx, hst, hret⟩ := h
  have first {a : Byte} {l : List Byte} (h : ∀ x ∈ a :: l, x.toNat < 8) : a.toNat < 8 := h a List.mem_cons_self
  have second {a b : Byte} (h : ∀ x ∈ [a, b], x.toNat < 8) : b.toNat < 8 := h b (by simp)
  cases i with
  | hlt => exact ⟨_, rfl, exec_hlt s⟩
  | ret =>
    have hs : s.sp ≠ 255 := by simpa [stackFault] using hst
    exact ⟨_, ⟨hs, rfl⟩, exec_ret s hs⟩
  | push a =>
    have hs : s.sp ≠ 0 := by simpa [stackFault] using hst
    exact ⟨_, ⟨first hidx, hs, rfl⟩, exec_push s _ hs⟩
  | pop a =>
    have hs : s.popBase a ≠ 255 := by simpa [stackFault] using hst
    rw [← sp_setReg_eq_popBase s (first hidx)] at hs
    exact ⟨_, ⟨first hidx, hs, rfl⟩, exec_pop s _ hs⟩
  | prn a => exact ⟨_, ⟨first hidx, rfl⟩, exec_prn s _⟩
  | call a =>
    have hs : s.sp ≠ 0 := by simpa [stackFault] using hst
    have hp : s.pc.toNat ≤ 253 := Nat.le_of_add_le_add_right (b := 2) (by simpa [returnFault] using hret)
    exact ⟨_, ⟨first hidx, hs, hp, rfl⟩, exec_call s _ hs hp⟩
  | jmp a => exact ⟨_, ⟨first hidx, rfl⟩, exec_jmp s _⟩
  | jeq a =>
    by_cases hf : s.fl = flagE
    · rw [accessedOperands_jeq_taken a hf] at hidx
      exact ⟨_, .inl ⟨hf, first hidx, rfl⟩, exec_jeq_taken s hf _⟩
    · exact ⟨_, .inr ⟨hf, rfl⟩, exec_jeq_untaken a hf⟩
  | ldi a b => exact ⟨_, ⟨first hidx, rfl⟩, exec_ldi b s _⟩
  | add a b => exact ⟨_, ⟨first hidx, second hidx, rfl⟩, exec_add s _ _⟩
  | mul a b => exact ⟨_, ⟨first hidx, second hidx, rfl⟩, exec_mul s _ _⟩
  | cmp a b => exact ⟨_, ⟨first hidx, second hidx, rfl⟩, exec_cmp s _ _⟩

/-- From `RUNNING` an instruction ends in a fault exactly when that is the first check that raises. -/
theorem exec_eq_faultedWith_iff (hr : s.run = .running) :
    exec i s = .next (s.faultedWith c n) ↔ execFault s i = some (c, n) := by
  refine ⟨fun h => ?_, exec_of_execFault_eq_some⟩
  cases hf : execFault s i with
  | none =>
    obtain ⟨t, he, ht⟩ := exec_of_execFault_eq_none hf
    cases h.symm.trans ht
    exact absurd rfl (he.run_ne_faulted hr)
  | some f =>
    obtain ⟨rfl, rfl⟩ := faultedWith_inj (Host.Outcome.next.inj (h.symm.trans (exec_of_execFault_eq_some hf)))
    rfl

theorem execFault_eq_stackOutOfRange_iff :
    execFault s i = some (.stackOutOfRange, n) ↔
      (∀ a ∈ accessedOperands s i, a.toNat < 8) ∧ stackFault s i = some n := by
  rw [← find?_badIndex_eq_none_iff]
  simp [execFault, Option.or_eq_some_iff, -List.find?_eq_none]

/-! ## The checks of rule R212 by the bytes at `pc` -/

/-- The first of some checks that raises is this one's fault, or else that of the rest. -/
theorem find?_check_cons (p : Prop) [Decidable p] (f : Cause × Nat) (l : List (Bool × Cause × Nat)) :
    (((decide p, f) :: l).find? (·.1)).map (·.2) =
      (if p then some f else none).or ((l.find? (·.1)).map (·.2)) := by
  by_cases hp : p <;> simp [hp]

theorem find?_badIndex_cons (f : Byte → Cause × Nat) (a : Byte) (l : List Byte) :
    ((a :: l).find? fun x => decide (7 < x.toNat)).map f =
      (if 7 < a.toNat then some (f a) else none).or ((l.find? fun x => decide (7 < x.toNat)).map f) := by
  by_cases ha : 7 < a.toNat <;> simp [ha]

theorem firstFault_of_pc_gt (hp : 255 < s.pc.toNat) : firstFault s = some (.memoryOutOfRange, s.pc.toNat) := by
  simp only [firstFault, faultChecks, find?_check_cons, if_pos hp, Option.some_or]

theorem firstFault_of_operands_missing (hp : s.pc.toNat ≤ 255) (ho : s.opcodeAtPc ≠ Opcode.hlt)
    (hn : 255 < s.pc.toNat + operandCount s.opcodeAtPc) : firstFault s = some (.memoryOutOfRange, 256) := by
  rw [operandCount_eq] at hn
  simp only [firstFault, faultChecks, find?_check_cons, if_neg (not_lt.mpr hp), if_pos (And.intro ho hn),
    Option.none_or, Option.some_or]

/-- A fetch that has met no missing byte leaves the decision to the checks after the first two. -/
theorem firstFault_of_fetched (hn : s.pc.toNat + operandCount s.opcodeAtPc ≤ 255) :
    firstFault s = (((faultChecks s).drop 2).find? (·.1)).map (·.2) := by
  have hp : ¬255 < s.pc.toNat := by omega
  rw [operandCount_eq] at hn
  have hop : ¬(s.opcodeAtPc ≠ 0x01 ∧ 255 < s.pc.toNat + s.opcodeAtPc.toNat / 64) := fun h => not_lt.mpr hn h.2
  rw [firstFault, faultChecks, find?_check_cons, find?_check_cons, if_neg hp, if_neg hop]
  rfl

/-- Of an opcode outside the table only the policy's check is about: every other check names rows of it. -/
theorem firstFault_of_unknown (hn : s.pc.toNat + operandCount s.opcodeAtPc ≤ 255)
    (ho : s.opcodeAtPc ∉ Opcode.table) : firstFault s =
      if s.unknownOpcodePolicy = .fault then some (.unknownOpcode, s.opcodeAtPc.toNat) else none := by
  simp only [firstFault_of_fetched hn, faultChecks, List.drop_succ_cons, List.drop_zero, find?_check_cons]
  revert ho
  simp +contextual [Opcode.table]

/-- For the instruction that stands at `pc` the checks by its bytes are its own. -/
theorem firstFault_of_standsAtPc (hi : StandsAtPc s i) (hn : s.pc.toNat + operandCount s.opcodeAtPc ≤ 255) :
    firstFault s = execFault s i := by
  simp only [firstFault_of_fetched hn, faultChecks, List.drop_succ_cons, List.drop_zero, find?_check_cons,
    execFault]
  cases i
  case hlt | ret => simp [hi.opcodeAtPc_eq rfl, Opcode.table, accessedOperands, stackFault, returnFault]
  case push a | pop a | prn a | call a | jmp a =>
    simp [hi.opcodeAtPc_eq rfl, hi.byteAtPc_eq (k := 1) rfl, Opcode.table, accessedOperands, stackFault,
      returnFault]
  case jeq a =>
    by_cases hf : s.fl = 1#8 <;>
      simp [hi.opcodeAtPc_eq rfl, hi.byteAtPc_eq (k := 1) rfl, Opcode.table, accessedOperands, stackFault,
        returnFault, hf]
  case ldi a b | add a b | mul a b | cmp a b =>
    simp [hi.opcodeAtPc_eq rfl, hi.byteAtPc_eq (k := 1) rfl, hi.byteAtPc_eq (k := 2) rfl, Opcode.table,
      accessedOperands, find?_badIndex_cons, stackFault, returnFault]

end Sys2Proof.Machine
end

section
/-! PROOFS. Faults: they are precise, the first check decides, and whose the stack's and the ALU's are. -/

namespace Sys2Proof.Proofs

open Sys2Proof.Machine

/-- Settles O11: a step to `FAULTED` is a fault taken from the state the step began with. -/
theorem faultsArePrecise : Obligations.FaultsArePrecise := by
  intro s t h ht
  obtain ⟨r, -, rfl⟩ := stepRaise_of_faulted h ht
  exact ⟨r.cause, r.info, rfl, fun n => runFor_raise r⟩

/-- Settles O12: each way a step begins fixes which check is the first, and what the step does. -/
theorem stepTakesTheFirstFault : Obligations.StepTakesTheFirstFault := by
  intro s hr
  obtain ⟨hp, hs⟩ | ⟨hp, ho, hn, hs⟩ | ⟨-, hn, i, hi, hs⟩ | ⟨-, hn, ho, hs⟩ := step_cases hr <;> rw [hs]
  · rw [firstFault_of_pc_gt hp]
    exact ⟨fun c n h => by cases h; rfl, nofun⟩
  · rw [firstFault_of_operands_missing hp ho hn]
    exact ⟨fun c n h => by cases h; rfl, nofun⟩
  · rw [firstFault_of_standsAtPc hi hn]
    refine ⟨fun c n h => exec_of_execFault_eq_some h, fun h => ?_⟩
    obtain ⟨t, he, ht⟩ := exec_of_execFault_eq_none h
    exact ⟨t, ht, he.run_ne_faulted hr⟩
  · rw [firstFault_of_unknown hn ho]
    cases hpol : s.unknownOpcodePolicy with
    | fault =>
      rw [execUnknown_fault _ hpol]
      exact ⟨fun c n h => by cases h; rfl, nofun⟩
    | skip => exact ⟨nofun, fun _ => ⟨_, execUnknown_skip _ hpol, by rw [State.advance_run, hr]; decide⟩⟩

/-- Settles O14: it is the fault of the stack check, which comes after the operands' and before the return
address's. -/
theorem stackFaultExactlyAtTheEnds : Obligations.StackFaultExactlyAtTheEnds := by
  intro i s info hr
  rw [exec_eq_faultedWith_iff hr, execFault_eq_stackOutOfRange_iff, stackFault_eq_some_iff]
  simp only [Nat.lt_succ_iff]

/-- Settles O17: the ALU's refusal is its own last row, and it is none of the faults a step takes. -/
theorem unsupportedOperationIsUnreachable : Obligations.UnsupportedOperationIsUnreachable := by
  refine ⟨fun _ _ _ _ => rfl, fun s t f h ht hf => ?_⟩
  obtain ⟨r, hraise, rfl⟩ := stepRaise_of_faulted h ht
  cases hf
  exact hraise.cause_ne_unsupportedOperation

end Sys2Proof.Proofs
end

section
/-! SUPPORT. Reset and the host's operations: every component after a reset, what a load does, which sessions a run
leaves, and which operations end the right to load (rules R32, R233, R234 and R240). -/

namespace Sys2Proof.Machine

variable {s t : State} {h g : HostSession} {reply : HostReply} {op : HostOp} {ops : List HostOp}
  {bytes : List Byte} {m : Memory} {n : Nat}

/-! ## Reset, component by component (rule R32) -/

section

variable (c : Config) (d : ResetDraw)

theorem reg_resetWith_low (k : Fin 6) : (resetWith c d).reg ⟨k.val, by omega⟩ = resetLowReg c d k := by
  fin_cases k <;> rfl

theorem resetLowReg_eq (k : Fin 6) : resetLowReg c d k = if c.resetFill = .zero then 0x00 else d.regs[k] := by
  cases hf : c.resetFill <;> simp [resetLowReg, hf]

theorem resetMemory_of_zero (hf : c.resetFill = .zero) : resetMemory c d = [] := by rw [resetMemory, hf]

theorem resetMemory_of_arbitrary (hf : c.resetFill = .arbitrary) :
    resetMemory c d = Memory.writeList [] 0 d.cells.toList := by rw [resetMemory, hf]

theorem read_resetMemory (x : Fin 256) :
    (resetMemory c d).read x.val = if c.resetFill = .zero then 0x00 else d.cells[x] := by
  cases hf : c.resetFill with
  | zero => rw [resetMemory_of_zero c d hf]; rfl
  | arbitrary =>
    rw [resetMemory_of_arbitrary c d hf, Memory.read_writeList, dif_pos (by simp)]
    simp

@[simp] theorem sp_resetWith : (resetWith c d).sp = Config.spReset := by
  obtain ⟨_, _ | _, _, _⟩ := c <;> rfl

@[simp] theorem fl_resetWith : (resetWith c d).fl = Config.flReset := by
  obtain ⟨_, _ | _, _, _⟩ := c <;> rfl

@[simp] theorem config_resetWith : (resetWith c d).config = c := by
  obtain ⟨_, _ | _, _, _⟩ := c <;> rfl

/-- With nothing in memory the first step meets the unknown opcode 0x00 (rule R233). -/
theorem step_resetWith_of_zero (hf : c.resetFill = .zero) :
    step (resetWith c d) = execUnknown 0x00 (resetWith c d) := by
  have ho : (resetWith c d).opcodeAtPc = 0x00 := congrArg (Memory.read · 0) (resetMemory_of_zero c d hf)
  have hstep := step_of_unknown (s := resetWith c d) rfl (by rw [ho]; decide)
    (by rw [ho]; exact Nat.zero_le _)
  rwa [ho] at hstep

end

/-! ## Load (rules R233 and R234) -/

theorem loadCore_of_le (s : State) (hn : bytes.length ≤ 256) :
    loadCore bytes s = (.ok, s.setMem (s.mem.writeList 0 bytes)) := if_neg (not_lt.mpr hn)

theorem loadCore_of_gt (s : State) (hn : 256 < bytes.length) :
    loadCore bytes s =
      (.fault .programTooLarge bytes.length,
        { s with
          run := .faulted
          faultRecord := some { cause := .programTooLarge, info := bytes.length, fpc := 0 } }) := if_pos hn

/-- At the `pc` of a reset a load that is too large is a fault like a step's. -/
theorem loadCore_of_gt_eq_raise (hp : s.pc = 0) (hn : 256 < bytes.length) :
    (loadCore bytes s).2 = s.raise ⟨.programTooLarge, bytes.length⟩ := by
  rw [loadCore_of_gt s hn, State.raise, hp]

theorem hostLoad_of_open (hopen : h.loadOpen = true) (bytes : List Byte) :
    hostLoad bytes h = ((loadCore bytes h.core).1, ⟨(loadCore bytes h.core).2, false⟩) := if_pos hopen

theorem hostLoad_of_closed (hclosed : h.loadOpen = false) (bytes : List Byte) :
    hostLoad bytes h = (.refused, h) := if_neg (by rw [hclosed]; decide)

theorem hostLoad_loadOpen (bytes : List Byte) (h : HostSession) : (hostLoad bytes h).2.loadOpen = false := by
  cases hopen : h.loadOpen with
  | false => rw [hostLoad_of_closed hopen, hopen]
  | true => rw [hostLoad_of_open hopen]

/-! ## Step and run (rule R240) -/

theorem hostStep_of_next (hs : step h.core = .next t) : hostStep h = (.runState t.run, ⟨t, false⟩) := by
  rw [hostStep, hs]

/-- A run that may take steps ends the right to load, and leaves the core a bounded run leaves. -/
theorem HostRun.of_steps (hr : h.core.run = .running) (hk : h.core.maxSteps ≠ some 0) (hrun : HostRun h reply g) :
    g.loadOpen = false ∧ ∃ n r, runFor n h.core = (r, g.core) := by
  cases hlim : h.core.maxSteps with
  | none =>
    obtain ⟨r, t, ⟨-, -, n, hn⟩, hg⟩ := (hostRun_of_no_limit hr hlim).mp hrun
    obtain ⟨-, rfl⟩ := Prod.mk.inj hg
    exact ⟨rfl, n, r, hn⟩
  | some k =>
    obtain ⟨r, hcore, -, hopen⟩ := eq_hostRunFor_iff.mp ((hostRun_of_limit hr hlim).mp hrun)
    have hk0 : k ≠ 0 := fun e => hk (hlim.trans (congrArg some e))
    exact ⟨Bool.eq_false_iff.mpr fun ho => hk0 (hopen.mp ho).2, k, r, hcore⟩

/-- A run of a stopped core, or under a limit of no steps, changes nothing. -/
theorem HostRun.of_no_steps (hidle : h.core.run = .running → h.core.maxSteps = some 0)
    (hrun : HostRun h reply g) : g = h := by
  by_cases hr : h.core.run = .running
  · have hg := (hostRun_of_limit hr (hidle hr)).mp hrun
    rw [hostRunFor_zero hr] at hg
    exact (Prod.mk.inj hg).2
  · exact (Prod.mk.inj ((hostRun_of_stopped hr).mp hrun)).2

/-! ## What an operation leaves (rule R240) -/

theorem HostDoes.eq_of_reset {d : ResetDraw} (hdoes : HostDoes (.reset d) h reply g) : g = hostReset d h :=
  congrArg Prod.snd hdoes

theorem HostDoes.eq_of_load (hdoes : HostDoes (.load bytes) h reply g) : g = (hostLoad bytes h).2 :=
  congrArg Prod.snd hdoes

theorem HostDoes.eq_of_step (hdoes : HostDoes .step h reply g) : g = (hostStep h).2 :=
  congrArg Prod.snd hdoes

/-! ## The invariant under the host's operations -/

theorem State.Inv.setMem (hs : s.Inv) (hm : m.wf) : (s.setMem m).Inv :=
  ⟨hm, hs.pc_le, hs.fl_legal, hs.fault_iff, hs.fault_legal⟩

theorem State.Inv.raise_of_legal {q : Raise} (hs : s.Inv) (hq : FaultRecord.Legal ⟨q.cause, q.info, s.pc⟩) :
    (s.raise q).Inv where
  mem_wf := hs.mem_wf
  pc_le := hs.pc_le
  fl_legal := hs.fl_legal
  fault_iff := iff_of_true rfl rfl
  fault_legal := by
    rintro f ⟨⟩
    exact ⟨hq, rfl⟩

theorem State.Inv.after_load (hs : s.Inv) (hp : s.pc = 0) (bytes : List Byte) : (loadCore bytes s).2.Inv := by
  obtain hn | hn := Nat.lt_or_ge 256 bytes.length
  · rw [loadCore_of_gt_eq_raise hp hn]
    exact hs.raise_of_legal ⟨hn, hp⟩
  · rw [loadCore_of_le s hn]
    exact hs.setMem (Memory.wf_writeList hs.mem_wf 0 bytes (by omega))

theorem State.Inv.after_steps (hs : s.Inv) (hsteps : StepsTo n s t) : t.Inv := by
  induction n generalizing s with
  | zero => exact hsteps ▸ hs
  | succ n ih =>
    obtain ⟨u, hstep, hrest⟩ := hsteps
    exact ih (Proofs.stepKeepsTheInvariant s u hs hstep) hrest

theorem State.Inv.after_runFor (hs : s.Inv) (hrun : runFor n s = (r, t)) : t.Inv := by
  obtain ⟨_, -, hsteps, -⟩ := hs.runFor_eq_iff.mp hrun
  exact hs.after_steps hsteps

/-- A session that may no longer load needs the invariant of its core alone. -/
theorem HostSession.Inv.of_closed (hc : h.core.Inv) (hclosed : h.loadOpen = false) : h.Inv :=
  ⟨hc, fun hopen => absurd (hclosed.symm.trans hopen) (by decide)⟩

theorem HostSession.Inv.after_load (hh : h.Inv) (bytes : List Byte) : (hostLoad bytes h).2.Inv := by
  cases hopen : h.loadOpen with
  | false => rw [hostLoad_of_closed hopen]; exact hh
  | true =>
    obtain ⟨-, hp, -⟩ := hh.load_open hopen
    rw [hostLoad_of_open hopen]
    exact .of_closed (hh.core.after_load hp bytes) rfl

theorem HostSession.Inv.after_step (hh : h.Inv) : (hostStep h).2.Inv := by
  by_cases hr : h.core.run = .running
  · obtain ⟨t, ht⟩ := step_next_of_running hr
    rw [hostStep_of_next ht]
    exact .of_closed (Proofs.stepKeepsTheInvariant _ t hh.core ht) rfl
  · rw [hostStep_of_stopped hr]
    exact hh

theorem HostSession.Inv.after_run (hh : h.Inv) (hrun : HostRun h reply g) : g.Inv := by
  by_cases hidle : h.core.run = .running → h.core.maxSteps = some 0
  · rw [hrun.of_no_steps hidle]
    exact hh
  · obtain ⟨hr, hk⟩ := Classical.not_imp.mp hidle
    obtain ⟨hclosed, n, r, hn⟩ := hrun.of_steps hr hk
    exact .of_closed (hh.core.after_runFor hn) hclosed

theorem HostSession.Inv.after_op (hh : h.Inv) (hdoes : HostDoes op h reply g) : g.Inv := by
  cases op with
  | reset d => exact hdoes.eq_of_reset ▸ Proofs.resetMeetsTheInvariant.2 h.core.config d
  | load bytes => exact hdoes.eq_of_load ▸ hh.after_load bytes
  | step => exact hdoes.eq_of_step ▸ hh.after_step
  | run => exact hh.after_run hdoes
  | readState | readOut => exact (Prod.mk.inj hdoes).2 ▸ hh

/-! ## The right to load (rule R233) -/

/-- The operations that, on a `RUNNING` core with `MAX_STEPS = k`, end the right to load. -/
def EndsLoad (k : Option Nat) : HostOp → Prop
  | .load _ => True
  | .step => True
  | .run => k ≠ some 0
  | .reset _ | .readState | .readOut => False

theorem exists_endsLoad_iff {k : Option Nat} :
    (∃ op ∈ ops, EndsLoad k op) ↔
      (∃ image, HostOp.load image ∈ ops) ∨ HostOp.step ∈ ops ∨ (HostOp.run ∈ ops ∧ k ≠ some 0) := by
  constructor
  · rintro ⟨op, hop, hends⟩
    cases op with
    | load image => exact .inl ⟨image, hop⟩
    | step => exact .inr (.inl hop)
    | run => exact .inr (.inr ⟨hop, hends⟩)
    | reset _ | readState | readOut => exact hends.elim
  · rintro (⟨image, hop⟩ | hop | ⟨hop, hk⟩)
    · exact ⟨_, hop, trivial⟩
    · exact ⟨_, hop, trivial⟩
    · exact ⟨_, hop, hk⟩

theorem HostDoes.loadOpen_of_load (hdoes : HostDoes (.load bytes) h reply g) : g.loadOpen = false :=
  hdoes.eq_of_load ▸ hostLoad_loadOpen bytes h

theorem HostDoes.loadOpen_of_endsLoad (hdoes : HostDoes op h reply g) (hr : h.core.run = .running)
    (hends : EndsLoad h.core.maxSteps op) : g.loadOpen = false := by
  cases op with
  | load bytes => exact hdoes.loadOpen_of_load
  | step =>
    obtain ⟨t, ht⟩ := step_next_of_running hr
    rw [hdoes.eq_of_step, hostStep_of_next ht]
  | run => exact (HostRun.of_steps hr hends hdoes).1
  | reset _ | readState | readOut => exact hends.elim

theorem HostDoes.eq_of_not_endsLoad (hdoes : HostDoes op h reply g) (hop : ∀ d, op ≠ .reset d)
    (hends : ¬EndsLoad h.core.maxSteps op) : g = h := by
  cases op with
  | reset d => exact absurd rfl (hop d)
  | load _ | step => exact absurd trivial hends
  | run => exact HostRun.of_no_steps (fun _ => not_not.mp hends) hdoes
  | readState | readOut => exact (Prod.mk.inj hdoes).2

/-- An operation other than reset changes nothing, or leaves a session that may not load. -/
theorem HostDoes.eq_or_closed (hdoes : HostDoes op h reply g) (hop : ∀ d, op ≠ .reset d) :
    g = h ∨ g.loadOpen = false := by
  by_cases hr : h.core.run = .running
  · by_cases hends : EndsLoad h.core.maxSteps op
    · exact .inr (hdoes.loadOpen_of_endsLoad hr hends)
    · exact .inl (hdoes.eq_of_not_endsLoad hop hends)
  · cases op with
    | reset d => exact absurd rfl (hop d)
    | load bytes => exact .inr (hdoes.loadOpen_of_load)
    | step => exact .inl (by rw [hdoes.eq_of_step, hostStep_of_stopped hr])
    | run => exact .inl (Prod.mk.inj ((hostRun_of_stopped hr).mp hdoes)).2
    | readState | readOut => exact .inl (Prod.mk.inj hdoes).2

theorem HostDoesAll.loadOpen_of_closed (hdoes : HostDoesAll ops h g) (hops : ∀ d, HostOp.reset d ∉ ops)
    (hclosed : h.loadOpen = false) : g.loadOpen = false := by
  induction ops generalizing h with
  | nil => rw [show g = h from hdoes, hclosed]
  | cons op ops ih =>
    obtain ⟨reply, m, hop, hrest⟩ := hdoes
    exact ih hrest (fun d hd => hops d (List.mem_cons_of_mem _ hd))
      ((hop.eq_or_closed fun d e => hops d (e ▸ List.mem_cons_self)).elim (fun e => e ▸ hclosed) id)

/-- On a `RUNNING` core, operations without a reset end the right to load if one of them does; else they change
nothing. -/
theorem HostDoesAll.right_to_load (hdoes : HostDoesAll ops h g) (hops : ∀ d, HostOp.reset d ∉ ops)
    (hr : h.core.run = .running) :
    ((∃ op ∈ ops, EndsLoad h.core.maxSteps op) → g.loadOpen = false) ∧
      (¬(∃ op ∈ ops, EndsLoad h.core.maxSteps op) → g = h) := by
  induction ops generalizing h with
  | nil => exact ⟨fun ⟨_, hop, _⟩ => absurd hop List.not_mem_nil, fun _ => hdoes⟩
  | cons op ops ih =>
    obtain ⟨reply, m, hop, hrest⟩ := hdoes
    have htail : ∀ d, HostOp.reset d ∉ ops := fun d hd => hops d (List.mem_cons_of_mem _ hd)
    simp only [List.mem_cons, exists_eq_or_imp]
    by_cases hends : EndsLoad h.core.maxSteps op
    · exact ⟨fun _ => hrest.loadOpen_of_closed htail (hop.loadOpen_of_endsLoad hr hends),
        fun hno => absurd (.inl hends) hno⟩
    · obtain rfl := hop.eq_of_not_endsLoad (fun d e => hops d (e ▸ List.mem_cons_self)) hends
      rw [or_iff_right hends]
      exact ih hrest htail hr

end Sys2Proof.Machine
end

section
/-! PROOFS. Reset and the host control interface: the values of a reset, load, step, and the invariant under
every operation. -/

namespace Sys2Proof.Proofs

open Sys2Proof.Machine

/-- Settles O46, by induction on the operations: each one keeps the invariant. -/
theorem hostOperationsKeepTheInvariant : Obligations.HostOperationsKeepTheInvariant := by
  intro ops
  induction ops with
  | nil => exact fun h g hh hg => hg ▸ hh
  | cons op ops ih =>
    rintro h g hh ⟨reply, m, hop, hrest⟩
    exact ih m g (hh.after_op hop) hrest

/-- Settles O48: the components one by one; the default reset reads no draw. -/
theorem resetPutsEveryValue : Obligations.ResetPutsEveryValue :=
  ⟨fun c d => ⟨rfl, sp_resetWith c d, rfl, fl_resetWith c d, rfl,
    fun k => (reg_resetWith_low c d k).trans (resetLowReg_eq c d k), read_resetMemory c d,
    rfl, rfl, rfl, config_resetWith c d⟩, fun _ => rfl⟩

/-- Settles O50: a load that fits is a write of memory from 0 up, one that does not is a fault. -/
theorem loadWritesTheImageOrNothing : Obligations.LoadWritesTheImageOrNothing := by
  refine fun bytes s => ⟨fun hn => ?_, loadCore_of_gt s⟩
  rw [loadCore_of_le s hn]
  refine ⟨rfl, fun x hx => ?_, fun x hx => ?_, rfl⟩
  · rw [State.setMem_mem, Memory.read_writeList, dif_pos ⟨x.zero_le, by omega⟩]
    rfl
  · rw [State.setMem_mem, Memory.read_writeList, dif_neg (by omega)]

/-- Settles O51: a reset core is `RUNNING`, so each operation either ends the right to load or changes nothing. -/
theorem loadIsAllowedOnceAfterReset : Obligations.LoadIsAllowedOnceAfterReset := by
  refine ⟨fun c d bytes => hostLoad_of_open rfl bytes, fun c d bytes ops g hops hdoes => ?_,
    step_resetWith_of_zero⟩
  obtain ⟨hends, hkeeps⟩ := hdoes.right_to_load hops rfl
  rw [← exists_endsLoad_iff]
  exact ⟨fun he => hostLoad_of_closed (hends he) bytes, hkeeps⟩

/-- Settles O52: a `RUNNING` core always has a step, and a stopped one refuses it. -/
theorem hostStepAnswersTheNewRunState : Obligations.HostStepAnswersTheNewRunState := by
  refine fun h => ⟨fun hr => ?_, hostStep_of_stopped⟩
  obtain ⟨t, ht⟩ := step_next_of_running hr
  exact ⟨t, ht, hostStep_of_next ht⟩

end Sys2Proof.Proofs
end
